-- ==== Sys2Proof/Word.lean ====
section
/-! DEFINITION. The word types of the P25 sync core: the 64-bit window word and the 8-bit buffer byte. -/

namespace Sys2Proof

/-- `W`, the width of the rolling window in bits: the one number the spec fixes (R8, R21). -/
abbrev W : Nat := 64

/-- A window value: a 64-bit unsigned word (R21). -/
abbrev Word := BitVec W

/-- A frame-buffer byte (R25). -/
abbrev Byte := BitVec 8

/-- A transaction word `tx[2:0]` (R60). -/
abbrev Tx := BitVec 3

/-- A value of the signal-quality input `sq[15:0]` (R60). -/
abbrev Quality := BitVec 16

end Sys2Proof
end

