-- ==== Sys2Proof/Config.lean ====
section
/-! DEFINITION. What one built instance of the block fixes: the configuration record `cfg` of R8, the test
configuration T16 of spec/95_test_vectors.md section 1.1, and the one free value of the model. -/

namespace Sys2Proof

/-- The configuration record `cfg` (R8), under the spec's own field names, with the register widths `CW` and `KW` of
R11. It is fixed for the life of an instance and no transaction reads it out or writes it (R173). Whether it is
well-formed is `Cfg.wf` (R176). -/
structure Cfg where
  /-- sync-pattern length in bits -/
  S : Nat
  /-- sync-pattern length in bytes -/
  SB : Nat
  /-- the known sync pattern as a window value -/
  PATTERN : Word
  /-- the comparison mask -/
  MASK : Word
  /-- the canonical sync bytes written into the sync region -/
  SYNC_SEQ : List Byte
  /-- header-frame length in bits -/
  H : Nat
  /-- header-frame length in bytes -/
  HB : Nat
  /-- full frame length in bits -/
  F : Nat
  /-- full frame length in bytes -/
  FB : Nat
  /-- largest Hamming distance accepted when acquiring lock -/
  START_TOL : Nat
  /-- largest Hamming distance accepted for a resync while locked -/
  RUN_TOL : Nat
  /-- lock-loss countdown maximum -/
  MAX : Nat
  /-- whether the signal-quality trailer is embedded and emitted -/
  SQ_ENABLE : Bool
  /-- first byte of a header-frame flush -/
  PFX_HDR : Byte
  /-- first byte of a flagged payload frame -/
  PFX_FLAG : Byte
  /-- first byte of a normal payload frame -/
  PFX_NOFLAG : Byte
  /-- width of the cursor register -/
  CW : Nat
  /-- width of the countdown register -/
  KW : Nat
  deriving DecidableEq, Repr

/-- T16, the spec's toy configuration (spec/95_test_vectors.md section 1.1), every value as listed there. -/
def Config.t16 : Cfg :=
  { S := 16, SB := 2, PATTERN := 0xC72D, MASK := 0xFFFF, SYNC_SEQ := [0xC7, 0x2D]
    H := 24, HB := 3, F := 64, FB := 8, START_TOL := 1, RUN_TOL := 3, MAX := 4, SQ_ENABLE := true
    PFX_HDR := 0x01, PFX_FLAG := 0x02, PFX_NOFLAG := 0x00, CW := 7, KW := 3 }

/-- FREE VALUE: what an instance's countdown holds after `cd <- cd - 1` with `cd = 0`. The spec gives that decrement
no result ("the decrement would go below zero", R130) and assumes no wrap (spec/91_not_in_source.md N21). It is never
read in a state that satisfies R30. DESIGN CHOICE, safe: notes/assumptions/5.md. -/
opaque Config.countdownBelowZero : Cfg → Nat

end Sys2Proof
end

