-- ==== Sys2Proof/Syntax.lean ====
section
/-! DEFINITION. The input transactions of the block: one constructor for each row of spec/opcode_table.json (R69). -/

namespace Sys2Proof

/-- An input transaction (R69). The bits a pattern leaves open (`x`) carry no meaning (R62) and are no operands. -/
inductive Instr where
  /-- RESET, pattern `1xx`: the `reset()` operation. -/
  | reset
  /-- ONBIT, pattern `01b`: one received bit, `b = tx[0]`, 1 for true (R61). -/
  | onbit (b : Bool)
  /-- NOP, pattern `00x`: a step with no call. -/
  | nop
  deriving DecidableEq, Repr

end Sys2Proof
end

