-- ==== Sys2Proof/WellFormed.lean ====
section
/-! DEFINITION. Well-formedness: of a transaction (every one is, R63) and of a configuration (the ten named
constraints of R176). -/

namespace Sys2Proof

/-- Every transaction is well-formed: no encoding is illegal or reserved, and ONBIT's operand is one bit (R61, R63). -/
def Instr.wf : Instr → Bool
  | .reset => true
  | .onbit _ => true
  | .nop => true

/-- The names of the constraints of R176, in the order of its table. -/
inductive Constraint where
  | WF_S | WF_SB | WF_HB | WF_FB | WF_NONOVERLAP | WF_EARLY_IN_FRAME | WF_HB_FB | WF_MAX | WF_TOL | WF_WIDTHS
  deriving DecidableEq, Repr

/-- `ceil(n/8)`: how many bytes hold `n` bits (R8, R176). -/
def ceil8 (n : Nat) : Nat := (n + 7) / 8

/-- The constraint named `k`, of the configuration `c` (R176, one line a row). -/
def Cfg.meets (c : Cfg) : Constraint → Bool
  | .WF_S => decide (2 ≤ c.S ∧ c.S ≤ 64)
  | .WF_SB => decide (c.SB = ceil8 c.S ∧ c.SYNC_SEQ.length = c.SB)
  | .WF_HB => decide (c.HB = ceil8 c.H)
  | .WF_FB => decide (c.FB = ceil8 c.F)
  | .WF_NONOVERLAP => decide (4 ≤ c.H)
  | .WF_EARLY_IN_FRAME => decide (c.H + c.S + 1 < c.F)
  | .WF_HB_FB => decide (c.HB ≤ c.FB)
  | .WF_MAX => decide (1 ≤ c.MAX)
  | .WF_TOL => decide (c.START_TOL < c.RUN_TOL)
  | .WF_WIDTHS => decide (c.F < 2 ^ c.CW ∧ c.MAX < 2 ^ c.KW)

/-- The constraints in the order R176 checks them. -/
def Constraint.all : List Constraint :=
  [.WF_S, .WF_SB, .WF_HB, .WF_FB, .WF_NONOVERLAP, .WF_EARLY_IN_FRAME, .WF_HB_FB, .WF_MAX, .WF_TOL, .WF_WIDTHS]

/-- The first constraint that `c` breaks, if any: the one `ConfigRefused` names (R176). -/
def Cfg.firstBroken (c : Cfg) : Option Constraint :=
  Constraint.all.find? fun k => !c.meets k

/-- The recommended consistency of R177, clauses (a) to (d), which no step enforces or reads: no pattern bit outside the
mask, no mask bit above the pattern, canonical bytes equal to the pattern, and no stale buffer bit ever emitted. -/
def Cfg.recommended (c : Cfg) : Bool :=
  decide (c.PATTERN &&& ~~~ c.MASK = 0 ∧ c.MASK >>> c.S = 0 ∧
    (c.S = 8 * c.SB → c.SYNC_SEQ = (List.range c.SB).map fun q => (c.PATTERN >>> (c.S - 8 - 8 * q)).setWidth 8) ∧
    c.F % 8 = 0 ∧ 8 * c.HB ≤ c.H + c.S - 1)

/-- `c` is well-formed: it breaks no constraint of R176 (R10). -/
abbrev Cfg.wf (c : Cfg) : Prop := c.firstBroken = none

end Sys2Proof
end

