-- ==== Sys2Proof/Decode.lean ====
section
/-! DEFINITION. Decoding and encoding of transaction words (R60 to R63, R69), and the opcode table as data. -/

namespace Sys2Proof

/-- Why a number is no transaction word. -/
inductive Reject where
  /-- It has a bit above `tx[2]`: every transaction is 3 bits long (R60). -/
  | widerThanTx (w : Nat)
  deriving DecidableEq, Repr

/-- Decoding of a transaction word, total over all eight values, with the priority of R62: RST, then VALID, then
neither. It refuses nothing (R63). -/
def decode (tx : Tx) : Instr :=
  if tx.getLsbD 2 then .reset
  else if tx.getLsbD 1 then .onbit (tx.getLsbD 0)
  else .nop

/-- Decoding of any number: the eight transaction words decode, a number with further bits is rejected by name. -/
def decodeNumber (w : Nat) : Except Reject Instr :=
  if w < 8 then .ok (decode (BitVec.ofNat 3 w)) else .error (.widerThanTx w)

/-- The instruction the decoder reads from a table word `w`; the table numbers `tx[0]` as bit 0. Every transaction is
3 bits whatever `nbits` says. -/
def decodeTableWord (_nbits w : Nat) : Option Instr :=
  match decodeNumber w with
  | .ok i => some i
  | .error _ => none

/-- The transaction word of an instruction. Open bits are 0, as R70 writes RESET (4) and NOP (0). -/
def encode : Instr → Tx
  | .reset => 0b100
  | .onbit b => 0b010 ||| (if b then 0b001 else 0b000)
  | .nop => 0b000

/-- One row of the table of R69. -/
structure OpcodeRow where
  mnemonic : String
  mask : Tx
  pattern : Tx
  deriving DecidableEq, Repr

/-- The opcode table (R69; spec/opcode_table.json). -/
def opcodeTable : List OpcodeRow :=
  [ { mnemonic := "RESET", mask := 0b100, pattern := 0b100 },
    { mnemonic := "ONBIT", mask := 0b110, pattern := 0b010 },
    { mnemonic := "NOP", mask := 0b110, pattern := 0b000 } ]

/-- A word matches a row when its masked bits are the row's pattern. -/
def rowMatches (r : OpcodeRow) (tx : Tx) : Bool := tx &&& r.mask == r.pattern

/-- The row a transaction belongs to (R69). -/
def Instr.mnemonic : Instr → String
  | .reset => "RESET"
  | .onbit _ => "ONBIT"
  | .nop => "NOP"

end Sys2Proof
end

