-- ==== Sys2Proof/Machine/State.lean ====
section
/-! DEFINITION. The state of the machine: the block's five fields (R20), the configuration of the instance, and the
block's ports (pending input transactions, the signal-quality input, the output events of the current step). -/

namespace Sys2Proof.Machine

/-- The lock state (R24): a one-bit register, the block's only mode (R157). -/
inductive Lock where
  | UNLOCKED
  | LOCKED
  deriving DecidableEq, Repr

/-- The frame buffer as a list of address and byte pairs in canonical form (`Memory.wf`): addresses strictly rising,
no entry equal to what an unlisted address reads as. -/
abbrev Memory := List Host.Cell

/-- What an address with no entry reads as: 0x00, the reset value of every buffer byte (R31). -/
def unlistedByte : Byte := 0x00

/-- Every address of the list is above `a`, addresses rise strictly, and no entry holds the unlisted byte. -/
def Memory.wfAbove : Nat → Memory → Bool
  | _, [] => true
  | a, (b, v) :: m => decide (a ≤ b) && decide (v ≠ unlistedByte) && Memory.wfAbove (b + 1) m

/-- The canonical form of a memory. -/
def Memory.wf (m : Memory) : Bool := Memory.wfAbove 0 m

/-- An output event: one synchronous call to a collaborator (R65, R66). -/
inductive Event where
  /-- `setDecodeActive(a)` to the I/O layer. -/
  | SetDecode (a : Bool)
  /-- `emitHeaderFrame(buffer, length)` to the frame sink, with a copy of the bytes (R50). -/
  | EmitHeader (bytes : List Byte)
  /-- `emitPayloadFrame(buffer, length)` to the frame sink, with a copy of the bytes (R50). -/
  | EmitPayload (bytes : List Byte)
  /-- `emitLockLost()` to the frame sink. -/
  | LockLost
  deriving DecidableEq, Repr

/-- What stands on the block's inputs in one step: the transaction word and the signal-quality value beside it (R60). -/
structure Input where
  tx : Tx
  sq : Quality
  deriving DecidableEq, Repr

/-- The state of the block: the five fields of R20 and nothing else. The cursor and the countdown are natural numbers,
as R11 allows. -/
structure Block where
  /-- the lock state (R24) -/
  lock : Lock
  /-- the rolling bit window (R21) -/
  win : Word
  /-- the buffer write cursor, counting payload bits (R22) -/
  cur : Nat
  /-- the lock-loss countdown (R23) -/
  cd : Nat
  /-- the frame buffer (R25) -/
  buf : Memory
  deriving DecidableEq, Repr

/-- The machine: the block together with the configuration it was built with and its ports. `cfg` is a parameter of
every step and no step writes it (R20, R173): notes/assumptions/1.md. -/
structure State extends Block where
  /-- the configuration the instance was built with (R8) -/
  cfg : Cfg
  /-- transactions the bit source has still to present, the next one first (R60, R161): notes/assumptions/2.md -/
  inputs : List Input
  /-- the value on the signal-quality input in the current step (R60, R64): notes/assumptions/3.md -/
  sq : Quality
  /-- the ordered event list of the current step (R15, R140): notes/assumptions/4.md -/
  events : List Event
  deriving DecidableEq, Repr

/-- The model faults of R151, a closed set. Neither is a signal of the hardware. -/
inductive Fault where
  /-- Code 1. Raised by `construct`, for a configuration that breaks the named constraint of R176; and by the write of
  the sync bytes when the configuration does not give `SB` of them (notes/assumptions/8.md). Safe. -/
  | configRefused (c : Constraint)
  /-- Code 2. Raised by a buffer access at byte index `j >= BUFB` (R14). Unreachable under a well-formed configuration
  (R152). Safe. -/
  | bufferBounds (j : Nat)
  deriving DecidableEq, Repr

/-- The code R151 gives a fault. -/
def Fault.code : Fault → Nat
  | .configRefused _ => 1
  | .bufferBounds _ => 2

/-- Why a transaction has no meaning. The block refuses no transaction (R150), so no meaning raises this. -/
inductive Refusal where
  /-- Raised by `exec` for an instruction the model gives no meaning; no arm does. Safe. -/
  | notModelled (mnemonic : String)
  deriving DecidableEq, Repr

/-- The reset state of the block (R31). -/
def Block.reset : Block :=
  { lock := .UNLOCKED, win := 0, cur := 0, cd := 0, buf := [] }

/-- A freshly built instance with the configuration `c` (R144): the reset state, nothing presented and nothing
emitted. The value on the signal-quality input is open (notes/assumptions/3.md). -/
def State.resetWith (c : Cfg) : State :=
  { toBlock := Block.reset, cfg := c, inputs := [], sq := 0, events := [] }

/-- The machine right after reset. The spec leaves the configuration to the integrator (R8); this state has T16, the
spec's own test configuration. DESIGN CHOICE, unsafe if leant on: notes/assumptions/1.md. -/
def State.reset : State := State.resetWith Config.t16

end Sys2Proof.Machine
end

