-- ==== Sys2Proof/Machine/Operands.lean ====
section
/-! DEFINITION. Quantities derived from the configuration (R9), the places of payload bits (R42, R43), and the pieces
of operands: the extended bit (R61) and the trailer bytes (R46). -/

namespace Sys2Proof.Machine

/-- `BUFB`, the physical buffer size in bytes (R9, R25). -/
def bufBytes (c : Cfg) : Nat := 1 + c.FB + 2

/-- `EARLY_LO`, the low edge of the early-resync cursor window (R9). -/
def earlyLo (c : Cfg) : Nat := c.H + c.S - 1

/-- `EARLY_HI`, the high edge of the early-resync cursor window (R9). -/
def earlyHi (c : Cfg) : Nat := c.H + c.S + 1

/-- `INPOS_LO`, the low edge of the in-position cursor window (R9). -/
def inposLo (c : Cfg) : Nat := c.S - 2

/-- `INPOS_HI`, the high edge of the in-position cursor window (R9). -/
def inposHi (c : Cfg) : Nat := c.S + 2

/-- `HDR_LEN`, the header-emission length (R9). -/
def hdrLen (c : Cfg) : Nat := 1 + c.HB

/-- `PAY_LEN`, the payload-emission length (R9). -/
def payLen (c : Cfg) : Nat := 1 + c.FB + (if c.SQ_ENABLE then 2 else 0)

/-- The cursor lies in the early-resync window, bounds included (R114). -/
def inEarly (c : Cfg) (cur : Nat) : Bool := decide (earlyLo c ≤ cur ∧ cur ≤ earlyHi c)

/-- The cursor lies in the in-position window, bounds included (R116). -/
def inInpos (c : Cfg) (cur : Nat) : Bool := decide (inposLo c ≤ cur ∧ cur ≤ inposHi c)

/-- The buffer byte that holds payload bit `i` (R42). -/
def byteOfBit (i : Nat) : Nat := 1 + i / 8

/-- The mask of payload bit `i` within its byte, most significant bit first (R43). -/
def maskOfBit (i : Nat) : Byte := (0x80 : Byte) >>> (i % 8)

/-- A byte with payload bit `i`'s place set to `b`: a 1 sets it, a 0 clears it (R43). -/
def putBit (v : Byte) (i : Nat) (b : Bool) : Byte :=
  if b then v ||| maskOfBit i else v &&& ~~~ maskOfBit i

/-- `zext_64(b)` (R12, R61). -/
def zext64 (b : Bool) : Word := if b then 1 else 0

/-- The window after the bit `b`: `((win << 1) | zext_64(b)) mod 2^64` (R80). -/
def shifted (b : Bool) (win : Word) : Word := (win <<< 1) ||| zext64 b

/-- `q[15:8]`, the trailer's first byte (R46). -/
def qHigh (q : Quality) : Byte := q.extractLsb' 8 8

/-- `q[7:0]`, the trailer's second byte (R46). -/
def qLow (q : Quality) : Byte := q.extractLsb' 0 8

/-- `cd - 1` (R124). Below zero the result is a free value: notes/assumptions/5.md. -/
def countdownPred (c : Cfg) (cd : Nat) : Nat :=
  if cd = 0 then Config.countdownBelowZero c else cd - 1

/-- The first byte of a payload frame emitted with the decremented countdown `cd` (R68, R126). -/
def payloadPfx (c : Cfg) (cd : Nat) : Byte :=
  if cd = c.MAX - 1 then c.PFX_FLAG else c.PFX_NOFLAG

/-- The tag R66 gives an event. -/
def eventTag : Event → Nat
  | .SetDecode _ => 0
  | .EmitHeader _ => 1
  | .EmitPayload _ => 2
  | .LockLost => 3

end Sys2Proof.Machine
end

