-- ==== Sys2Proof/Machine/Flags.lean ====
section
/-! DEFINITION. The signals a step computes and does not store (R28): the Hamming distance and the two match
predicates (R81 to R83). -/

namespace Sys2Proof.Machine

/-- How many of the low `n` bits of `v` are 1. -/
def onesBelow (v : Word) : Nat → Nat
  | 0 => 0
  | n + 1 => onesBelow v n + (v.getLsbD n).toNat

/-- `popcount(v)`, the number of 1 bits in `v` (R12). -/
def popcount (v : Word) : Nat := onesBelow v W

/-- HD, the masked Hamming distance of a window from the sync pattern (R81). -/
def hamming (c : Cfg) (win : Word) : Nat := popcount ((win &&& c.MASK) ^^^ c.PATTERN)

/-- MATCH_START, the acquisition threshold, inclusive (R82). -/
def matchStart (c : Cfg) (hd : Nat) : Bool := decide (hd ≤ c.START_TOL)

/-- MATCH_RUN, the in-lock threshold, inclusive (R83). -/
def matchRun (c : Cfg) (hd : Nat) : Bool := decide (hd ≤ c.RUN_TOL)

end Sys2Proof.Machine
end

