-- ==== Sys2Proof/Machine/Ops.lean ====
section
/-! DEFINITION. The named operations the meanings share: reading and writing the buffer (R14, R43 to R47), emitting
events and sampling the signal quality (R15), the window shift (R80), the full anchor (R101), and presenting the next
input transaction (R60). The block takes no exceptions and returns from none (R150, R155, R156), so there is no
exception entry here. -/

namespace Sys2Proof.Machine

/-- The byte at address `a`. -/
def readByte : Memory → Nat → Byte
  | [], _ => unlistedByte
  | (b, v) :: m, a => if a = b then v else readByte m a

/-- A cell put before the first cell with a higher address. -/
def insertCell (a : Nat) (v : Byte) : Memory → Memory
  | [] => [(a, v)]
  | (b, w) :: m => if a < b then (a, v) :: (b, w) :: m else (b, w) :: insertCell a v m

/-- The memory with byte `v` at address `a`, in canonical form again: the old entry goes, and writing the unlisted
byte leaves no entry. -/
def writeByte (m : Memory) (a : Nat) (v : Byte) : Memory :=
  let rest := m.filter fun cell => decide (cell.1 ≠ a)
  if v = unlistedByte then rest else insertCell a v rest

/-- The bytes of `seq` at `j`, `j + 1`, and so on. -/
def writeBytes : Memory → Nat → List Byte → Memory
  | m, _, [] => m
  | m, j, v :: seq => writeBytes (writeByte m j v) (j + 1) seq

/-- The `n` bytes from `j` on. -/
def readBytes (m : Memory) : Nat → Nat → List Byte
  | _, 0 => []
  | j, n + 1 => readByte m j :: readBytes m (j + 1) n

/-- Payload bit `i`, as the buffer holds it (R42). -/
def payloadBit (m : Memory) (i : Nat) : Bool := (readByte m (byteOfBit i)).getLsbD (7 - i % 8)

/-- All of the `n` byte indices from `j` on are in `[0, BUFB)` (R14). -/
def inBuffer (c : Cfg) (j n : Nat) : Bool := decide (n = 0 ∨ j + n ≤ bufBytes c)

/-- The first byte index of an access from `j` on that lies outside the buffer: the one `BufferBounds` records. -/
def firstOutside (c : Cfg) (j : Nat) : Nat := max j (bufBytes c)

/-- `MemRead(j, n)` (R14). -/
def memRead (j n : Nat) (s : State) : Except Fault (List Byte) :=
  if inBuffer s.cfg j n then .ok (readBytes s.buf j n) else .error (.bufferBounds (firstOutside s.cfg j))

/-- `MemWrite(j, n, seq)`, with `n` the length of `seq` (R14). -/
def memWrite (j : Nat) (seq : List Byte) (s : State) : Except Fault State :=
  if inBuffer s.cfg j seq.length then .ok { s with buf := writeBytes s.buf j seq }
  else .error (.bufferBounds (firstOutside s.cfg j))

/-- The memory with payload bit `i` set to `b` and every other bit as before (R43). -/
def putPayloadBit (m : Memory) (i : Nat) (b : Bool) : Memory :=
  writeByte m (byteOfBit i) (putBit (readByte m (byteOfBit i)) i b)

/-- `BitWrite(i, b)` (R43). -/
def bitWrite (i : Nat) (b : Bool) (s : State) : Except Fault State :=
  if byteOfBit i < bufBytes s.cfg then .ok { s with buf := putPayloadBit s.buf i b }
  else .error (.bufferBounds (byteOfBit i))

/-- `WriteSync()`: the canonical sync bytes over the sync region (R45). A configuration that does not give `SB` of
them breaks `WF_SB` and is refused here too: notes/assumptions/8.md. -/
def writeSync (s : State) : Except Fault State :=
  if s.cfg.SYNC_SEQ.length = s.cfg.SB then memWrite 1 s.cfg.SYNC_SEQ s else .error (.configRefused .WF_SB)

/-- `WriteTrailer(q)`: high byte first, right after the payload bytes (R46). -/
def writeTrailer (q : Quality) (s : State) : Except Fault State :=
  memWrite (1 + s.cfg.FB) [qHigh q, qLow q] s

/-- `ClearBuffer()`: every byte of the buffer to 0x00 (R47). -/
def clearBuffer (s : State) : State := { s with buf := [] }

/-- `emit(E)`: appends to the step's ordered event list (R15). -/
def emit (e : Event) (s : State) : State := { s with events := s.events ++ [e] }

/-- `sample_sq()`: the value on the signal-quality input at this step (R15, R64). -/
def sampleSq (s : State) : Quality := s.sq

/-- SHIFT, the rolling-window shift (R80). -/
def shiftIn (b : Bool) (s : State) : State := { s with win := shifted b s.win }

/-- An anchor's register writes: `cd <- MAX` and `cur <- S` (R121). -/
def anchor (s : State) : State := { s with cd := s.cfg.MAX, cur := s.cfg.S }

/-- FullAnchor (R101): the sync region, then the registers. -/
def fullAnchor (s : State) : Except Fault State := do
  let s ← writeSync s
  .ok (anchor s)

/-- What stands on the inputs in the next step, and the state with it taken: the first pending input, or, with none
pending, a step with no call, which R62 calls NOP: notes/assumptions/2.md. -/
def present (s : State) : Input × State :=
  match s.inputs with
  | [] => ({ tx := 0b000, sq := s.sq }, s)
  | x :: rest => (x, { s with inputs := rest })

/-- The start of a step on the input `x`: the signal-quality input shows `x`'s value and the step's event list is
empty (R60, R140). -/
def startStep (x : Input) (s : State) : State := { s with sq := x.sq, events := [] }

/-- How a meaning's result is answered: the next state, or a stop with a model fault (R15). -/
def answer : Except Fault State → Host.Outcome State Fault Refusal
  | .ok s => .next s
  | .error f => .fault f

end Sys2Proof.Machine
end

