-- ==== Sys2Proof/Machine/Lifecycle.lean ====
section
/-! DEFINITION. The meanings of RESET and NOP (spec/43_lifecycle.md), and building an instance (R144, R151). -/

namespace Sys2Proof.Machine

/-- RESET (R141): every field of the block to its reset value; no event, and nothing else changes. -/
def execReset (s : State) : Host.Outcome State Fault Refusal :=
  .next { s with toBlock := Block.reset }

/-- NOP (R142): no change. -/
def execNop (s : State) : Host.Outcome State Fault Refusal :=
  .next s

/-- Building an instance with the configuration `c`: refused with the first constraint of R176 that `c` breaks, else
the reset state (R10, R144, R151). -/
def construct (c : Cfg) : Host.Outcome State Fault Refusal :=
  match c.firstBroken with
  | some k => .fault (.configRefused k)
  | none => .next (State.resetWith c)

end Sys2Proof.Machine
end

