-- ==== Sys2Proof/Machine/Locked.lean ====
section
/-! DEFINITION. ONBIT while LOCKED (spec/42_locked.md): bit write, early resync, in-position resync, completion. -/

namespace Sys2Proof.Machine

/-- Part 2: the raw bit at the cursor, then the cursor one further (R113). -/
def writeBit (b : Bool) (s : State) : Except Fault State := do
  let s ← bitWrite s.cur b s
  .ok { s with cur := s.cur + 1 }

/-- The three actions of an early resync, in order: the header's first byte, the header emission, the full anchor
(R114). -/
def flushHeader (s : State) : Except Fault State := do
  let s ← memWrite 0 [s.cfg.PFX_HDR] s
  let bytes ← memRead 0 (hdrLen s.cfg) s
  fullAnchor (emit (.EmitHeader bytes) s)

/-- Part 3: the early resync, with the step's distance `hd` (R114). -/
def earlyResync (hd : Nat) (s : State) : Except Fault State :=
  if inEarly s.cfg s.cur && matchRun s.cfg hd then flushHeader s else .ok s

/-- Part 4: the in-position resync, with the same distance; it never writes the buffer (R116 to R118). -/
def inposResync (hd : Nat) (s : State) : State :=
  if inInpos s.cfg s.cur && matchRun s.cfg hd then anchor s else s

/-- Lock loss, in order: decode inactive, lock lost, UNLOCKED; nothing is cleared (R125, R32). -/
def loseLock (s : State) : State :=
  { emit .LockLost (emit (.SetDecode false) s) with lock := .UNLOCKED }

/-- The trailer of a payload emission, when quality reporting is enabled (R126 point 2, R64). -/
def embedQuality (s : State) : Except Fault State :=
  if s.cfg.SQ_ENABLE then writeTrailer (sampleSq s) s else .ok s

/-- A payload emission, in order: first byte, trailer, emission, clear, cursor to 0 (R126). -/
def emitFrame (s : State) : Except Fault State := do
  let s ← memWrite 0 [payloadPfx s.cfg s.cd] s
  let s ← embedQuality s
  let bytes ← memRead 0 (payLen s.cfg) s
  .ok { clearBuffer (emit (.EmitPayload bytes) s) with cur := 0 }

/-- Part 5: frame completion, decrement first and compare after (R123, R124). -/
def completion (s : State) : Except Fault State :=
  if s.cur = s.cfg.F then
    let s := { s with cd := countdownPred s.cfg s.cd }
    if s.cd = 0 then .ok (loseLock s) else emitFrame s
  else .ok s

/-- ONBIT_LOCKED(b), the whole step in the order of R110. The distance is computed once (R112). -/
def onbitLocked (b : Bool) (s : State) : Except Fault State := do
  let s := shiftIn b s
  let hd := hamming s.cfg s.win
  let s ← writeBit b s
  let s ← earlyResync hd s
  completion (inposResync hd s)

end Sys2Proof.Machine
end

