-- ==== Sys2Proof/Machine/Unlocked.lean ====
section
/-! DEFINITION. ONBIT while UNLOCKED (spec/41_unlocked.md): acquisition. -/

namespace Sys2Proof.Machine

/-- Acquisition: the full anchor, the lock, and the notification that decode lock is active (R100). -/
def acquire (s : State) : Except Fault State := do
  let s ← fullAnchor s
  .ok (emit (.SetDecode true) { s with lock := .LOCKED })

/-- ONBIT_UNLOCKED(b) (R100, R102). -/
def onbitUnlocked (b : Bool) (s : State) : Except Fault State :=
  let s := shiftIn b s
  let hd := hamming s.cfg s.win
  if matchStart s.cfg hd then acquire s else .ok s

end Sys2Proof.Machine
end

