-- ==== Sys2Proof/Machine/Onbit.lean ====
section
/-! DEFINITION. The meaning of ONBIT (R140): the lock state at the start of the step chooses the behaviour. -/

namespace Sys2Proof.Machine

/-- ONBIT with bit `b` (R69, R140). -/
def execOnbit (b : Bool) (s : State) : Host.Outcome State Fault Refusal :=
  match s.lock with
  | .UNLOCKED => answer (onbitUnlocked b s)
  | .LOCKED => answer (onbitLocked b s)

end Sys2Proof.Machine
end

