-- ==== Sys2Proof/Machine/Dispatch.lean ====
section
/-! DEFINITION. One arm for each transaction (R140). -/

namespace Sys2Proof.Machine

def exec (i : Instr) (s : State) : Host.Outcome State Fault Refusal :=
  match i with
  | .reset => Sys2Proof.Machine.execReset s
  | .onbit b => Sys2Proof.Machine.execOnbit b s
  | .nop => Sys2Proof.Machine.execNop s

end Sys2Proof.Machine
end

