-- ==== Sys2Proof/Machine/Step.lean ====
section
/-! DEFINITION. One step of the machine: STEP(tx, sq) of R140 on the next input transaction. -/

namespace Sys2Proof.Machine

/-- STEP(tx, sq) (R140): one input transaction, from an empty event list. -/
def transact (x : Input) (s : State) : Host.Outcome State Fault Refusal :=
  exec (decode x.tx) (startStep x s)

/-- One step of the machine: the next input transaction is presented and runs. -/
def step (s : State) : Host.Outcome State Fault Refusal :=
  transact (present s).1 (present s).2

/-- `s` with the transaction word `w` presented next, the signal-quality input as it stands: notes/assumptions/2.md. -/
def State.withFetchWord (s : State) (_nbits w : Nat) : State :=
  { s with inputs := { tx := BitVec.ofNat 3 w, sq := s.sq } :: s.inputs }

end Sys2Proof.Machine
end

