-- ==== Sys2Proof/Machine/Harness.lean ====
section
/-! DEFINITION. The spec's test-program syntax (R70, R71): lines, their digits, and the pseudo-instructions. -/

namespace Sys2Proof.Machine

/-- One line of a test program: a transaction word, or the harness directive `SQ v`, which is no transaction (R70). -/
inductive Line where
  | tx (w : Tx)
  | sq (v : Quality)
  deriving DecidableEq, Repr

/-- A line that is one instruction (R70). -/
def lineOf (i : Instr) : Line := .tx (encode i)

/-- `BITS v/n`: the `n` low bits of `v`, most significant first (R71). R71 gives `v` no width; the model takes a 64-bit
word, so with `n > 64` the first `n - 64` transactions are `BIT 0`. DESIGN CHOICE: notes/assumptions/14.md. -/
def lineBits (v : Word) : Nat → List Line
  | 0 => []
  | n + 1 => lineOf (.onbit (v.getLsbD n)) :: lineBits v n

/-- `SYNC`: the canonical pattern in arrival order (R71). -/
def lineSync (c : Cfg) : List Line := lineBits c.PATTERN c.S

/-- `SYNCX e`: the pattern with the bits set in `e` inverted (R71). -/
def lineSyncX (c : Cfg) (e : Word) : List Line := lineBits (c.PATTERN ^^^ e) c.S

/-- `ZEROS n` (R71). -/
def lineZeros (n : Nat) : List Line := List.replicate n (lineOf (.onbit false))

/-- `ONES n` (R71). -/
def lineOnes (n : Nat) : List Line := List.replicate n (lineOf (.onbit true))

/-- The inputs a program presents, with `q` on the signal-quality input until the first `SQ` (R70). -/
def inputsOf : Quality → List Line → List Input
  | _, [] => []
  | q, .tx w :: ls => { tx := w, sq := q } :: inputsOf q ls
  | _, .sq v :: ls => inputsOf v ls

/-- A program's encoding: the digits of its transactions in order; a directive has none (R70). -/
def digitsOf : List Line → List Nat
  | [] => []
  | .tx w :: ls => w.toNat :: digitsOf ls
  | .sq _ :: ls => digitsOf ls

/-- A machine with a program's transactions to be presented. -/
def loadProgram (q : Quality) (p : List Line) (s : State) : State := { s with inputs := inputsOf q p }

end Sys2Proof.Machine
end

