-- ==== Sys2Proof/Safety.lean ====
section
/-! DEFINITION. What claims about the machine are stated in: the invariants of R30, runs over a sequence of inputs,
what an observer sees of a run, and observational equivalence (R33). -/

namespace Sys2Proof.Machine

/-- Every entry of the memory is a byte of the buffer: its address is in `[0, BUFB)` (R40). -/
def Memory.within (n : Nat) (m : Memory) : Bool := m.all fun cell => decide (cell.1 < n)

/-- The invariants of R30 under a well-formed configuration, with the canonical form of the buffer. R30(d) follows from
(b): see the statement on bounds. -/
abbrev Invariants (s : State) : Prop :=
  s.cfg.wf ∧ s.cur ≤ s.cfg.F ∧ s.cd ≤ s.cfg.MAX ∧
  (s.lock = .LOCKED → 1 ≤ s.cd ∧ s.cur < s.cfg.F) ∧
  s.buf.wf = true ∧ s.buf.within (bufBytes s.cfg) = true

/-- The inputs `xs` presented one after another (R53): the state after the last, or the first stop. -/
def feed : List Input → State → Host.Outcome State Fault Refusal
  | [], s => .next s
  | x :: xs, s =>
    match transact x s with
    | .next t => feed xs t
    | .fault f => .fault f
    | .refused r => .refused r

/-- What an observer sees while `xs` is presented: each step's event list, as far as the run goes (R29, R55). -/
def observe : List Input → State → List (List Event)
  | [], _ => []
  | x :: xs, s =>
    match transact x s with
    | .next t => t.events :: observe xs t
    | .fault _ => []
    | .refused _ => []

/-- Two states are observationally equivalent: every input sequence gives the same event sequence (R33). -/
def ObsEq (s t : State) : Prop := ∀ xs : List Input, observe xs s = observe xs t

/-- A run over `xs` is safe: it reaches a next state, so no model fault was raised. -/
def SafeRun (xs : List Input) (s : State) : Prop := ∃ t, feed xs s = .next t

/-- An input that presents the bit `b` (R60, R61). -/
def bitInput (b : Bool) (q : Quality) : Input := { tx := encode (.onbit b), sq := q }

/-- The inputs that present a sequence of bits, each with what stands on the signal-quality input beside it. -/
def bitsIn (bs : List (Bool × Quality)) : List Input := bs.map fun p => bitInput p.1 p.2

/-- An input presents no call: the step is a NOP (R62). -/
def isIdle (x : Input) : Bool := decode x.tx == .nop

/-- The window after the bits `bs`, the first one first (R51). -/
def windowAfter (win : Word) (bs : List Bool) : Word := bs.foldl (fun w b => shifted b w) win

/-- `p` holds of the window after each of the bits `bs`. -/
def allWindows (p : Word → Bool) : Word → List Bool → Bool
  | _, [] => true
  | win, b :: bs => p (shifted b win) && allWindows p (shifted b win) bs

/-- No window is within the run tolerance: no resync can fire while these bits arrive (R112). -/
def quiet (c : Cfg) (win : Word) (bs : List Bool) : Bool :=
  allWindows (fun w => decide (c.RUN_TOL < hamming c w)) win bs

/-- The sync pattern's bits in arrival order: `SYNC` of R71. -/
def patternBits (c : Cfg) : List Bool := (List.range c.S).map fun k => c.PATTERN.getLsbD (c.S - 1 - k)

/-- Payload bit `i` of an emitted frame, whose byte 0 is the frame's first byte (R42, R50). -/
def frameBit (bytes : List Byte) (i : Nat) : Bool := (bytes.getD (byteOfBit i) unlistedByte).getLsbD (7 - i % 8)

/-- What no ONBIT, RESET or NOP writes: the configuration and the input ports (R27, R173). -/
def PortsKept (s t : State) : Prop := t.cfg = s.cfg ∧ t.inputs = s.inputs ∧ t.sq = s.sq

end Sys2Proof.Machine
end

