-- ==== Sys2Proof/Certificates/Slice0/Obligations.lean ====
section
/-! DEFINITION. The statements about the model, for the provers. Each is named for what it states; the rule of spec/ it
formalises stands in its docstring. -/

open Sys2Proof Sys2Proof.Machine

/-! ### Encoding -/

/-- R62: decoding is total over the eight words, RST first, then VALID; the open bits carry no meaning, no bit is taken
beside a reset, and a NOP changes nothing. The priority of reset is the spec's decision D3. -/
def Obligations.DecodePriority : Prop :=
  (∀ tx : Tx,
    (tx.getLsbD 2 = true → decode tx = .reset) ∧
    (tx.getLsbD 2 = false → tx.getLsbD 1 = true → decode tx = .onbit (tx.getLsbD 0)) ∧
    (tx.getLsbD 2 = false → tx.getLsbD 1 = false → decode tx = .nop)) ∧
  (∀ (tx tx' : Tx) (q : Quality) (s : State), tx.getLsbD 2 = true → tx'.getLsbD 2 = true →
    transact { tx := tx, sq := q } s = transact { tx := tx', sq := q } s) ∧
  (∀ (tx tx' : Tx) (q : Quality) (s : State), tx.getLsbD 2 = false → tx.getLsbD 1 = false →
    tx'.getLsbD 2 = false → tx'.getLsbD 1 = false →
    transact { tx := tx, sq := q } s = transact { tx := tx', sq := q } s) ∧
  (∀ (tx : Tx) (q : Quality) (s : State), tx.getLsbD 2 = true →
    ∃ t, transact { tx := tx, sq := q } s = .next t ∧ t.win = 0) ∧
  (∀ (tx : Tx) (q : Quality) (s : State), tx.getLsbD 2 = false → tx.getLsbD 1 = false →
    transact { tx := tx, sq := q } s = .next { s with sq := q, events := [] })

/-- R63, R70: the words written out from the table decode as the table says, no word is refused, and the words that
no mnemonic is written as run as well. The encoding is the spec's decision D2. -/
def Obligations.WordsDecodeAsTabled : Prop :=
  decodeTableWord 8 0b100 = some .reset ∧ decodeTableWord 8 0b010 = some (.onbit false) ∧
  decodeTableWord 8 0b011 = some (.onbit true) ∧ decodeTableWord 8 0b000 = some .nop ∧
  decodeTableWord 8 0b001 = some .nop ∧ decodeTableWord 8 0b101 = some .reset ∧
  decodeTableWord 8 0b110 = some .reset ∧ decodeTableWord 8 0b111 = some .reset ∧
  (∀ w, w < 8 → ∃ i, decodeNumber w = .ok i) ∧
  (∀ w ∈ [0b001, 0b101, 0b110, 0b111], ∀ (q : Quality) (s : State),
    ∃ t, transact { tx := BitVec.ofNat 3 w, sq := q } s = .next t)

/-- R69: decode and encode agree on every instruction, and the rows of the table tell the words apart. The encoding is
the spec's decision D2; that `encode` writes 0 in the open bits is the model's (notes/assumptions/10.md). -/
def Obligations.DecodeEncodeAgree : Prop :=
  (∀ i : Instr, i.wf = true → decode (encode i) = i) ∧
  (∀ tx : Tx, ∀ r ∈ opcodeTable, (rowMatches r tx = true ↔ r.mnemonic = (decode tx).mnemonic))

/-- R71: `BITS v/n` presents the `n` low bits of `v`, most significant first; the other pseudo-instructions are
instances of it. The syntax is the spec's decision D2; that `v` has 64 bits is the model's choice
(notes/assumptions/14.md). -/
def Obligations.PseudoInstructionsExpand : Prop :=
  (∀ (v : Word) (n : Nat), (lineBits v n).length = n ∧
    ∀ k, k < n → (lineBits v n)[k]? = some (.tx (encode (.onbit (v.getLsbD (n - 1 - k)))))) ∧
  (∀ (c : Cfg) (q : Quality), inputsOf q (lineSync c) = bitsIn ((patternBits c).map fun b => (b, q))) ∧
  (∀ (c : Cfg) (e : Word), lineSyncX c e = lineBits (c.PATTERN ^^^ e) c.S) ∧
  (∀ n, lineZeros n = lineBits 0 n) ∧
  (∀ n, n ≤ 64 → lineOnes n = lineBits (BitVec.allOnes 64) n)

/-! ### Steps -/

/-- R140, R62: a step runs `exec` of what the next presented word decodes to, on the state with that input taken, its
signal quality on the input and an empty event list. That the inputs wait in a list, and that a step with nothing
presented is a NOP, is the model's (notes/assumptions/2.md). -/
def Obligations.StepRunsDecoded : Prop :=
  (∀ (s : State) (x : Input) (rest : List Input), s.inputs = x :: rest →
    step s = exec (decode x.tx) { s with inputs := rest, sq := x.sq, events := [] }) ∧
  (∀ s : State, s.inputs = [] → step s = exec .nop { s with events := [] }) ∧
  (∀ (s : State) (w : Nat), w < 8 → ∀ i, decodeTableWord 8 w = some i →
    step (s.withFetchWord 8 w) = exec i { s with events := [] })

/-- R140: the dispatch, on RST, VALID and the lock state at the start of the step. -/
def Obligations.DispatchOnLock : Prop :=
  ∀ (tx : Tx) (q : Quality) (s : State),
    transact { tx := tx, sq := q } s =
      if tx.getLsbD 2 then execReset { s with sq := q, events := [] }
      else if tx.getLsbD 1 then
        (if s.lock = .UNLOCKED then answer (onbitUnlocked (tx.getLsbD 0) { s with sq := q, events := [] })
         else answer (onbitLocked (tx.getLsbD 0) { s with sq := q, events := [] }))
      else .next { s with sq := q, events := [] }

/-- R141: RESET writes the reset state from every state, emits nothing, and changes nothing else; a second RESET
changes nothing. The zeros are the spec's decision D16, the silence D23. -/
def Obligations.ResetClearsBlock : Prop :=
  (∀ s : State, ∃ t, exec .reset s = .next t ∧ t.lock = .UNLOCKED ∧ t.win = 0 ∧ t.cur = 0 ∧ t.cd = 0 ∧
    (∀ j, j < bufBytes s.cfg → readByte t.buf j = 0x00) ∧ t.events = s.events ∧ PortsKept s t ∧
    exec .reset t = .next t) ∧
  (∀ s s' : State, s.cfg = s'.cfg → ∀ t t', exec .reset s = .next t → exec .reset s' = .next t' →
    t.toBlock = t'.toBlock)

/-- R31: the reset state, for every configuration; and the model's `State.reset` is that state with the spec's test
configuration (the model's choice: notes/assumptions/1.md). The zeros are the spec's decision D16. -/
def Obligations.ResetStateIsClear : Prop :=
  (∀ c : Cfg, (State.resetWith c).lock = .UNLOCKED ∧ (State.resetWith c).win = 0 ∧ (State.resetWith c).cur = 0 ∧
    (State.resetWith c).cd = 0 ∧ (∀ j, j < bufBytes c → readByte (State.resetWith c).buf j = 0x00) ∧
    (State.resetWith c).cfg = c) ∧
  State.reset = State.resetWith Config.t16

/-- R142: NOP changes nothing and emits nothing. That there is a NOP is the spec's decision D4. -/
def Obligations.NopChangesNothing : Prop :=
  ∀ s : State, exec .nop s = .next s

/-- R142: any number of NOPs among the inputs makes no difference to the block or to the events. -/
def Obligations.NopsMakeNoDifference : Prop :=
  ∀ (xs : List Input) (s : State),
    (observe xs s).flatten = (observe (xs.filter fun x => !isIdle x) s).flatten ∧
    (∀ t, feed xs s = .next t →
      ∃ u, feed (xs.filter fun x => !isIdle x) s = .next u ∧ u.toBlock = t.toBlock ∧ u.cfg = t.cfg)

/-! ### Window and match -/

/-- R80: every ONBIT, in either lock state, shifts its bit into the window and drops the old bit 63. -/
def Obligations.EveryOnbitShifts : Prop :=
  ∀ (b : Bool) (s t : State), exec (.onbit b) s = .next t →
    t.win.toNat = (2 * s.win.toNat + b.toNat) % 2 ^ 64

/-- R51: the window holds the last 64 bits received, the latest in bit 0. -/
def Obligations.WindowHoldsLastBits : Prop :=
  ∀ (bs : List (Bool × Quality)) (s t : State), feed (bitsIn bs) s = .next t → ∀ k, k < 64 →
    t.win.getLsbD k =
      if h : k < bs.length then (bs[bs.length - 1 - k]'(by omega)).1 else s.win.getLsbD (k - bs.length)

/-- R81: the distance counts the positions where the masked window and the pattern differ; it is in `[0, 64]`. -/
def Obligations.HammingCountsDifferences : Prop :=
  ∀ (c : Cfg) (win : Word),
    hamming c win = ((Finset.range 64).filter fun k =>
      (win.getLsbD k && c.MASK.getLsbD k) ≠ c.PATTERN.getLsbD k).card ∧
    hamming c win ≤ 64

/-- R81 corner case: every pattern bit outside the mask counts as one error whatever the window holds, so the distance
never falls below their number; and with no such bit the pattern itself is at distance 0. -/
def Obligations.UnmaskedPatternBitsAreErrors : Prop :=
  (∀ (c : Cfg) (win : Word), popcount (c.PATTERN &&& ~~~ c.MASK) ≤ hamming c win) ∧
  (∀ (c : Cfg) (win : Word), hamming c win = 0 ↔ win &&& c.MASK = c.PATTERN)

/-- R82: the start threshold is inclusive, tolerance 0 demands an exact match under the mask, and a wide enough
tolerance matches every window. -/
def Obligations.StartThresholdIsInclusive : Prop :=
  (∀ (c : Cfg) (hd : Nat), matchStart c hd = true ↔ hd ≤ c.START_TOL) ∧
  (∀ (c : Cfg) (win : Word), c.START_TOL = 0 →
    (matchStart c (hamming c win) = true ↔ win &&& c.MASK = c.PATTERN)) ∧
  (∀ c : Cfg, popcount c.MASK + popcount (c.PATTERN &&& ~~~ c.MASK) ≤ c.START_TOL →
    ∀ win, matchStart c (hamming c win) = true)

/-- R83: the run threshold is inclusive too (the spec's decision D15), and under a well-formed configuration a start
match is a run match. -/
def Obligations.StartMatchIsRunMatch : Prop :=
  (∀ (c : Cfg) (hd : Nat), matchRun c hd = true ↔ hd ≤ c.RUN_TOL) ∧
  (∀ (c : Cfg) (hd : Nat), c.wf → matchStart c hd = true → matchRun c hd = true)

/-- R85, first reading: a window whose last `S` bits, compared under the mask, are too far from the pattern does not
acquire lock. -/
def Obligations.NoFalseLockUnderMask : Prop :=
  ∀ (b : Bool) (s : State), s.lock = .UNLOCKED →
    s.cfg.START_TOL < popcount (((shifted b s.win &&& s.cfg.MASK) ^^^ s.cfg.PATTERN) &&&
      (BitVec.allOnes 64 >>> (64 - s.cfg.S))) →
    exec (.onbit b) s = .next { s with win := shifted b s.win }

/-- R85, second reading: with every mask bit `0 .. S-1` set, the same holds of the unmasked difference. -/
def Obligations.NoFalseLockFullMask : Prop :=
  ∀ (b : Bool) (s : State), s.lock = .UNLOCKED → (∀ k, k < s.cfg.S → s.cfg.MASK.getLsbD k = true) → s.cfg.S ≤ 64 →
    s.cfg.START_TOL < popcount ((shifted b s.win ^^^ s.cfg.PATTERN) &&& (BitVec.allOnes 64 >>> (64 - s.cfg.S))) →
    exec (.onbit b) s = .next { s with win := shifted b s.win }

/-! ### The buffer -/

/-- R43: `BitWrite(i, b)` sets payload bit `i` to `b`, whatever it held, and touches nothing else; outside the buffer
it raises `BufferBounds` with the byte index. -/
def Obligations.BitWriteWritesOneBit : Prop :=
  (∀ (i : Nat) (b : Bool) (s : State), 1 + i / 8 < bufBytes s.cfg →
    ∃ t, bitWrite i b s = .ok t ∧ payloadBit t.buf i = b ∧ (∀ k, k ≠ i → payloadBit t.buf k = payloadBit s.buf k) ∧
      (∀ a, a ≠ 1 + i / 8 → readByte t.buf a = readByte s.buf a) ∧ t = { s with buf := t.buf }) ∧
  (∀ (i : Nat) (b : Bool) (s : State), bufBytes s.cfg ≤ 1 + i / 8 →
    bitWrite i b s = .error (.bufferBounds (1 + i / 8)))

/-- R44: the payload bits `0 .. 8n-1`, written in any order, read back as bytes in MSB-first order. -/
def Obligations.BitWritesReadBackAsBytes : Prop :=
  ∀ (n : Nat) (bits : Nat → Bool) (order : List Nat) (s : State), n ≤ s.cfg.FB + 2 → order.Perm (List.range (8 * n)) →
    ∃ t, order.foldlM (fun u k => bitWrite k (bits k) u) s = .ok t ∧
      (∀ q, q < n → ∀ j, j < 8 → (readByte t.buf (1 + q)).getLsbD (7 - j) = bits (8 * q + j)) ∧
      readByte t.buf 0 = readByte s.buf 0

/-- R14: a buffer access inside `[0, BUFB)` reads or writes exactly its bytes; one that leaves it raises
`BufferBounds` with an index outside the buffer. Which index a longer access records, and that a read faults as a write
does, is the model's reading (notes/assumptions/7.md). -/
def Obligations.BufferAccessesAreBounded : Prop :=
  (∀ (j n : Nat) (s : State), j + n ≤ bufBytes s.cfg →
    ∃ bytes, memRead j n s = .ok bytes ∧ bytes.length = n ∧ ∀ k, k < n → bytes[k]? = some (readByte s.buf (j + k))) ∧
  (∀ (j n : Nat) (s : State), 0 < n → bufBytes s.cfg < j + n →
    ∃ k, bufBytes s.cfg ≤ k ∧ j ≤ k ∧ k < j + n ∧ memRead j n s = .error (.bufferBounds k)) ∧
  (∀ (j : Nat) (seq : List Byte) (s : State), j + seq.length ≤ bufBytes s.cfg →
    ∃ t, memWrite j seq s = .ok t ∧ (∀ k, k < seq.length → some (readByte t.buf (j + k)) = seq[k]?) ∧
      (∀ a, a < j ∨ j + seq.length ≤ a → readByte t.buf a = readByte s.buf a) ∧ t = { s with buf := t.buf }) ∧
  (∀ (j : Nat) (seq : List Byte) (s : State), 0 < seq.length → bufBytes s.cfg < j + seq.length →
    ∃ k, bufBytes s.cfg ≤ k ∧ j ≤ k ∧ k < j + seq.length ∧ memWrite j seq s = .error (.bufferBounds k))

/-- R45, R47: the sync-region overwrite and the clear, each with what it leaves alone. -/
def Obligations.SyncWriteAndClear : Prop :=
  (∀ s : State, s.cfg.wf → ∃ t, writeSync s = .ok t ∧
    (∀ k, k < s.cfg.SB → some (readByte t.buf (1 + k)) = s.cfg.SYNC_SEQ[k]?) ∧
    (∀ a, a = 0 ∨ s.cfg.SB < a → readByte t.buf a = readByte s.buf a) ∧ t = { s with buf := t.buf }) ∧
  (∀ s : State, (∀ j, j < bufBytes s.cfg → readByte (clearBuffer s).buf j = 0x00) ∧
    clearBuffer s = { s with buf := (clearBuffer s).buf })

/-- R46: the trailer write, with what it leaves alone. High byte first is the spec's decision D9. -/
def Obligations.TrailerWriteIsHighByteFirst : Prop :=
  ∀ (q : Quality) (s : State), ∃ t, writeTrailer q s = .ok t ∧
    (readByte t.buf (1 + s.cfg.FB)).toNat = q.toNat / 256 ∧
    (readByte t.buf (2 + s.cfg.FB)).toNat = q.toNat % 256 ∧
    (∀ a, a ≠ 1 + s.cfg.FB → a ≠ 2 + s.cfg.FB → readByte t.buf a = readByte s.buf a) ∧ t = { s with buf := t.buf }

/-! ### ONBIT while UNLOCKED -/

/-- R100, R102: in UNLOCKED a match acquires lock, writing the canonical sync bytes, the countdown, the cursor
and the lock and notifying decode active; without a match only the window changes. -/
def Obligations.UnlockedOnbitAcquiresOrScans : Prop :=
  ∀ (b : Bool) (s : State), s.cfg.wf → s.lock = .UNLOCKED →
    (hamming s.cfg (shifted b s.win) ≤ s.cfg.START_TOL →
      ∃ t, exec (.onbit b) s = .next t ∧ t.lock = .LOCKED ∧ t.win = shifted b s.win ∧ t.cd = s.cfg.MAX ∧
        t.cur = s.cfg.S ∧ t.events = s.events ++ [.SetDecode true] ∧ PortsKept s t ∧
        (∀ k, k < s.cfg.SB → some (readByte t.buf (1 + k)) = s.cfg.SYNC_SEQ[k]?) ∧
        (∀ a, a = 0 ∨ s.cfg.SB < a → readByte t.buf a = readByte s.buf a)) ∧
    (s.cfg.START_TOL < hamming s.cfg (shifted b s.win) →
      exec (.onbit b) s = .next { s with win := shifted b s.win })

/-- R103, with no pattern bit outside the mask (else no window is at distance 0, R81): the exact canonical pattern, fed
in UNLOCKED, ends in LOCKED with a full countdown and the cursor at `S`, if no window matches earlier than the last
three bits; exactly one event is seen, decode active. -/
def Obligations.CanonicalPatternAcquires : Prop :=
  ∀ (s : State) (q : Quality), s.cfg.wf → s.lock = .UNLOCKED →
    s.cfg.MASK = BitVec.allOnes 64 >>> (64 - s.cfg.S) → s.cfg.PATTERN &&& ~~~ s.cfg.MASK = 0 →
    allWindows (fun w => decide (s.cfg.START_TOL < hamming s.cfg w)) s.win ((patternBits s.cfg).take (s.cfg.S - 3)) = true →
    ∃ t, feed (bitsIn ((patternBits s.cfg).map fun b => (b, q))) s = .next t ∧
      t.lock = .LOCKED ∧ t.cd = s.cfg.MAX ∧ t.cur = s.cfg.S ∧
      (observe (bitsIn ((patternBits s.cfg).map fun b => (b, q))) s).flatten = [.SetDecode true]

/-- R175: a freshly reset block acquires on its first bit exactly when that bit alone is within the start tolerance. -/
def Obligations.FirstBitCanAcquire : Prop :=
  ∀ (c : Cfg) (b : Bool), c.wf →
    ∃ t, exec (.onbit b) (State.resetWith c) = .next t ∧
      (t.lock = .LOCKED ↔ popcount ((zext64 b &&& c.MASK) ^^^ c.PATTERN) ≤ c.START_TOL)

/-- R180: the bit that completes an acquisition is not written to the buffer; the bit after it is written at payload
index `S`. -/
def Obligations.BitAfterAcquisitionIsWritten : Prop :=
  ∀ (b b' : Bool) (s : State), s.cfg.wf → s.lock = .UNLOCKED →
    hamming s.cfg (shifted b s.win) ≤ s.cfg.START_TOL →
    ∃ t u, exec (.onbit b) s = .next t ∧ (∀ i, 8 * s.cfg.SB ≤ i → payloadBit t.buf i = payloadBit s.buf i) ∧
      exec (.onbit b') t = .next u ∧ payloadBit u.buf s.cfg.S = b' ∧
      (∀ i, i ≠ s.cfg.S → payloadBit u.buf i = payloadBit t.buf i)

/-! ### ONBIT while LOCKED -/

/-- R113: a LOCKED step in which no check fires writes its bit at the cursor, advances the cursor, and changes nothing
else but the window. That the checks read the advanced cursor is the spec's decision D14. -/
def Obligations.LockedOnbitWritesItsBit : Prop :=
  ∀ (b : Bool) (s : State), s.cfg.wf → s.lock = .LOCKED → s.cur + 1 < s.cfg.F →
    (hamming s.cfg (shifted b s.win) ≤ s.cfg.RUN_TOL →
      inEarly s.cfg (s.cur + 1) = false ∧ inInpos s.cfg (s.cur + 1) = false) →
    ∃ t, exec (.onbit b) s = .next t ∧ t.lock = .LOCKED ∧ t.win = shifted b s.win ∧ t.cur = s.cur + 1 ∧
      t.cd = s.cd ∧ t.events = s.events ∧ PortsKept s t ∧ payloadBit t.buf s.cur = b ∧
      (∀ i, i ≠ s.cur → payloadBit t.buf i = payloadBit s.buf i) ∧
      (∀ a, a ≠ byteOfBit s.cur → readByte t.buf a = readByte s.buf a)

/-- R114: the early resync emits the header frame built so far and re-anchors with the canonical sync bytes.
The inclusive window is the spec's decision D13, the emitted length D11. -/
def Obligations.EarlyResyncFlushesHeader : Prop :=
  ∀ (b : Bool) (s : State), s.cfg.wf → s.lock = .LOCKED →
    s.cfg.H + s.cfg.S - 1 ≤ s.cur + 1 → s.cur + 1 ≤ s.cfg.H + s.cfg.S + 1 →
    hamming s.cfg (shifted b s.win) ≤ s.cfg.RUN_TOL →
    ∃ t bytes, exec (.onbit b) s = .next t ∧ t.lock = .LOCKED ∧ t.win = shifted b s.win ∧ t.cd = s.cfg.MAX ∧
      t.cur = s.cfg.S ∧ t.events = s.events ++ [.EmitHeader bytes] ∧ PortsKept s t ∧
      bytes.length = 1 + s.cfg.HB ∧ bytes[0]? = some s.cfg.PFX_HDR ∧
      (∀ i, i < 8 * s.cfg.HB → frameBit bytes i = if i = s.cur then b else payloadBit s.buf i) ∧
      readByte t.buf 0 = s.cfg.PFX_HDR ∧
      (∀ k, k < s.cfg.SB → some (readByte t.buf (1 + k)) = s.cfg.SYNC_SEQ[k]?) ∧
      (∀ i, 8 * s.cfg.SB ≤ i → payloadBit t.buf i = if i = s.cur then b else payloadBit s.buf i)

/-- R119: after an early resync the in-position check of the same step fires and changes nothing. -/
def Obligations.EarlyThenInposChangesNothing : Prop :=
  ∀ (hd : Nat) (s t : State), s.cfg.wf → inEarly s.cfg s.cur = true → matchRun s.cfg hd = true →
    earlyResync hd s = .ok t →
    inInpos t.cfg t.cur = true ∧ matchRun t.cfg hd = true ∧ inposResync hd t = t

/-- R120: under a well-formed configuration the two cursor windows do not overlap, and neither reaches the frame's
end. -/
def Obligations.CursorWindowsAreDisjoint : Prop :=
  ∀ (c : Cfg) (k : Nat), c.wf → inEarly c k = true → inInpos c k = false ∧ k < c.F ∧ c.S < k

/-- R117, R118: the in-position resync sets the countdown and the cursor and emits nothing; the buffer holds the
received bit and is otherwise as before. The inclusive window is the spec's decision D13. -/
def Obligations.InPositionResyncMovesCursorOnly : Prop :=
  ∀ (b : Bool) (s : State), s.cfg.wf → s.lock = .LOCKED →
    s.cfg.S - 2 ≤ s.cur + 1 → s.cur + 1 ≤ s.cfg.S + 2 →
    hamming s.cfg (shifted b s.win) ≤ s.cfg.RUN_TOL →
    ∃ t, exec (.onbit b) s = .next t ∧ t.lock = .LOCKED ∧ t.win = shifted b s.win ∧ t.cd = s.cfg.MAX ∧
      t.cur = s.cfg.S ∧ t.events = s.events ∧ PortsKept s t ∧ payloadBit t.buf s.cur = b ∧
      (∀ i, i ≠ s.cur → payloadBit t.buf i = payloadBit s.buf i) ∧
      (∀ a, a ≠ byteOfBit s.cur → readByte t.buf a = readByte s.buf a)

/-- R124, R126: a completion whose decremented countdown is not 0 emits the frame with its first byte and trailer,
clears the buffer and starts the next frame at 0, still LOCKED. The trailer's byte order is the spec's decision D9. -/
def Obligations.CompletionEmitsPayload : Prop :=
  ∀ (b : Bool) (s : State), s.cfg.wf → s.lock = .LOCKED → s.cur + 1 = s.cfg.F → 2 ≤ s.cd →
    ∃ t bytes, exec (.onbit b) s = .next t ∧ t.lock = .LOCKED ∧ t.win = shifted b s.win ∧ t.cd = s.cd - 1 ∧
      t.cur = 0 ∧ t.events = s.events ++ [.EmitPayload bytes] ∧ PortsKept s t ∧
      (∀ a, readByte t.buf a = 0x00) ∧
      bytes.length = 1 + s.cfg.FB + (if s.cfg.SQ_ENABLE then 2 else 0) ∧
      bytes[0]? = some (if s.cd - 1 = s.cfg.MAX - 1 then s.cfg.PFX_FLAG else s.cfg.PFX_NOFLAG) ∧
      (∀ i, i < 8 * s.cfg.FB → frameBit bytes i = if i = s.cur then b else payloadBit s.buf i) ∧
      (s.cfg.SQ_ENABLE = true → (bytes.getD (1 + s.cfg.FB) 0).toNat = s.sq.toNat / 256 ∧
        (bytes.getD (2 + s.cfg.FB) 0).toNat = s.sq.toNat % 256)

/-- R124, R125, R32: a completion whose decremented countdown is 0 loses lock: decode inactive, then lock lost; the
buffer keeps the partial frame, the cursor stays at `F` and the window is kept (the spec's decisions D17, D18); the
signal quality is not read. -/
def Obligations.CompletionLosesLock : Prop :=
  ∀ (b : Bool) (s : State), s.cfg.wf → s.lock = .LOCKED → s.cur + 1 = s.cfg.F → s.cd = 1 →
    ∃ t, exec (.onbit b) s = .next t ∧ t.lock = .UNLOCKED ∧ t.win = shifted b s.win ∧ t.cd = 0 ∧
      t.cur = s.cfg.F ∧ t.events = s.events ++ [.SetDecode false, .LockLost] ∧ PortsKept s t ∧
      payloadBit t.buf s.cur = b ∧ (∀ i, i ≠ s.cur → payloadBit t.buf i = payloadBit s.buf i) ∧
      (∀ a, a ≠ byteOfBit s.cur → readByte t.buf a = readByte s.buf a) ∧
      ∀ q : Quality, exec (.onbit b) { s with sq := q } = .next { t with sq := q }

/-- R124: a completion decrements the countdown first and compares after: lock is lost exactly when the new value
is 0. -/
def Obligations.DecrementThenCompare : Prop :=
  ∀ (b : Bool) (s : State), s.cfg.wf → s.lock = .LOCKED → s.cur + 1 = s.cfg.F → 1 ≤ s.cd →
    ∃ t, exec (.onbit b) s = .next t ∧ t.cd + 1 = s.cd ∧ (t.lock = .UNLOCKED ↔ t.cd = 0) ∧
      ((∃ bytes, t.events = s.events ++ [.EmitPayload bytes]) ↔ t.cd ≠ 0)

/-- R118: a frame whose cursor is below `S` is one that began at 0 with a cleared buffer, so everything from the cursor
on still reads 0; an in-position resync that moves the cursor forward therefore leaves 0 at the indices it skips. -/
def Obligations.SkippedBitsReadZero : Prop :=
  (∀ (x : Input) (s t : State), Invariants s →
    (s.lock = .LOCKED → s.cur < s.cfg.S → readByte s.buf 0 = 0x00 ∧ ∀ i, s.cur ≤ i → payloadBit s.buf i = false) →
    transact x s = .next t →
    (t.lock = .LOCKED → t.cur < t.cfg.S → readByte t.buf 0 = 0x00 ∧ ∀ i, t.cur ≤ i → payloadBit t.buf i = false)) ∧
  (∀ (b : Bool) (s : State), Invariants s → s.lock = .LOCKED → s.cfg.S - 2 ≤ s.cur + 1 → s.cur + 1 < s.cfg.S →
    (∀ i, s.cur ≤ i → payloadBit s.buf i = false) → hamming s.cfg (shifted b s.win) ≤ s.cfg.RUN_TOL →
    ∃ t, exec (.onbit b) s = .next t ∧ t.cur = s.cfg.S ∧
      ∀ i, s.cur + 1 ≤ i → i < s.cfg.S → payloadBit t.buf i = false)

/-- R130: with `MAX = 1` no step ever emits a payload frame. -/
def Obligations.MaxOneNeverEmitsPayload : Prop :=
  ∀ (x : Input) (s t : State), Invariants s → s.cfg.MAX = 1 → transact x s = .next t →
    ∀ bytes, Event.EmitPayload bytes ∉ t.events

/-- R131: while every window stays within the run tolerance, the in-position resync fires at every bit: the cursor
comes back to `S` and nothing is emitted. -/
def Obligations.RepeatedResyncEmitsNothing : Prop :=
  ∀ (bs : List (Bool × Quality)) (s : State), s.cfg.wf → s.lock = .LOCKED → s.cur = s.cfg.S →
    allWindows (fun w => decide (hamming s.cfg w ≤ s.cfg.RUN_TOL)) s.win (bs.map Prod.fst) = true →
    observe (bitsIn bs) s = List.replicate bs.length [] ∧
    ∃ t, feed (bitsIn bs) s = .next t ∧ t.lock = .LOCKED ∧ t.cur = s.cfg.S ∧ (bs ≠ [] → t.cd = s.cfg.MAX)

/-- R181: the window survives a lock loss (the spec's decision D18), so the next bit that keeps the distance within the
start tolerance re-acquires lock at once. -/
def Obligations.ReacquiresRightAfterLoss : Prop :=
  ∀ (b b' : Bool) (q q' : Quality) (s : State), s.cfg.wf → s.lock = .LOCKED → s.cur + 1 = s.cfg.F → s.cd = 1 →
    hamming s.cfg (shifted b' (shifted b s.win)) ≤ s.cfg.START_TOL →
    observe [bitInput b q, bitInput b' q'] s = [[.SetDecode false, .LockLost], [.SetDecode true]] ∧
    ∃ t, feed [bitInput b q, bitInput b' q'] s = .next t ∧ t.lock = .LOCKED ∧ t.cur = s.cfg.S ∧ t.cd = s.cfg.MAX

/-- R127: with no resync, the frame in progress ends after exactly `F - cur` further bits (`F - S` from an anchor, `F`
from a completion) in one emission or one lock loss, and the emitted frame carries the bits received, MSB first. That the
completion test reads the advanced cursor is the spec's decision D14; that a loss keeps the cursor at `F` is D17. -/
def Obligations.FramePeriodEndsInOneEvent : Prop :=
  ∀ (bs : List (Bool × Quality)) (s : State), Invariants s → s.lock = .LOCKED → bs.length = s.cfg.F - s.cur →
    quiet s.cfg s.win (bs.map Prod.fst) = true →
    ∃ t, feed (bitsIn bs) s = .next t ∧ t.cd = s.cd - 1 ∧
      (s.cd = 1 → t.lock = .UNLOCKED ∧ t.cur = s.cfg.F ∧
        observe (bitsIn bs) s = List.replicate (bs.length - 1) [] ++ [[.SetDecode false, .LockLost]]) ∧
      (2 ≤ s.cd → t.lock = .LOCKED ∧ t.cur = 0 ∧ ∃ bytes,
        observe (bitsIn bs) s = List.replicate (bs.length - 1) [] ++ [[.EmitPayload bytes]] ∧
        bytes.length = payLen s.cfg ∧ bytes[0]? = some (payloadPfx s.cfg (s.cd - 1)) ∧
        (∀ i, i < s.cur → frameBit bytes i = payloadBit s.buf i) ∧
        (∀ k, k < bs.length → some (frameBit bytes (s.cur + k)) = (bs.map Prod.fst)[k]?))

/-- R128, R129: after an anchor with no further match, `MAX - 1` completions emit frames, the first one flagged and
the others not, with the countdown one lower each time; the `MAX`-th completion loses lock. -/
def Obligations.CountdownExhaustion : Prop :=
  ∀ (bs : List (Bool × Quality)) (s : State), Invariants s → s.lock = .LOCKED → s.cur = s.cfg.S → s.cd = s.cfg.MAX →
    bs.length = (s.cfg.F - s.cfg.S) + (s.cfg.MAX - 1) * s.cfg.F → quiet s.cfg s.win (bs.map Prod.fst) = true →
    (∃ frames : List (List Byte), frames.length = s.cfg.MAX - 1 ∧
      (observe (bitsIn bs) s).flatten = frames.map Event.EmitPayload ++ [.SetDecode false, .LockLost] ∧
      ∀ i, i < frames.length →
        (frames.getD i [])[0]? = some (if i = 0 then s.cfg.PFX_FLAG else s.cfg.PFX_NOFLAG)) ∧
    (∃ t, feed (bitsIn bs) s = .next t ∧ t.lock = .UNLOCKED ∧ t.cd = 0) ∧
    (∀ n, 1 ≤ n → n < s.cfg.MAX →
      ∃ u, feed (bitsIn (bs.take ((s.cfg.F - s.cfg.S) + (n - 1) * s.cfg.F))) s = .next u ∧ u.lock = .LOCKED ∧
        u.cur = 0 ∧ u.cd = s.cfg.MAX - n)

/-! ### The whole machine -/

/-- R30: the invariants, kept by every step from every state that meets them; and (d), that the bit a LOCKED step writes
lies inside the payload, and so inside the buffer. The canonical form of the buffer is the model's own
(notes/assumptions/6.md). -/
def Obligations.StepKeepsInvariants : Prop :=
  (∀ s t : State, Invariants s → step s = .next t → Invariants t) ∧
  (∀ s : State, Invariants s → s.lock = .LOCKED → s.cur < 8 * s.cfg.FB ∧ byteOfBit s.cur < bufBytes s.cfg)

/-- The reset state meets the invariants of R30, for every well-formed configuration and so for `State.reset`. -/
def Obligations.ResetMeetsInvariants : Prop :=
  (∀ c : Cfg, c.wf → Invariants (State.resetWith c)) ∧ Invariants State.reset

/-- R150: every transaction completes in a state that meets the invariants, so no run of an instance built with a
well-formed configuration raises a model fault (R152); and no transaction is refused in any state. -/
def Obligations.EveryTransactionCompletes : Prop :=
  (∀ (i : Instr) (s : State), Invariants s → ∃ t, exec i s = .next t) ∧
  (∀ (c : Cfg) (xs : List Input) (s : State), construct c = .next s → SafeRun xs s) ∧
  (∀ (i : Instr) (s : State) (r : Refusal), exec i s ≠ .refused r)

/-- ONBIT completes in every state whose configuration is well-formed and whose cursor, if LOCKED, is inside the
frame. -/
def Obligations.OnbitCompletes : Prop :=
  ∀ (b : Bool) (s : State), s.cfg.wf → (s.lock = .LOCKED → s.cur < s.cfg.F) →
    ∃ t, exec (.onbit b) s = .next t ∧ t.win = shifted b s.win ∧ PortsKept s t

/-- R176, R151: a configuration is accepted exactly when all ten constraints hold, and is otherwise refused with the
first that fails; an accepted one gives the reset state. The constraints are the spec's decision D19. -/
def Obligations.ConstructChecksInOrder : Prop :=
  (∀ c : Cfg, c.wf ↔
    (2 ≤ c.S ∧ c.S ≤ 64) ∧ (8 * c.SB - 7 ≤ c.S ∧ c.S ≤ 8 * c.SB ∧ c.SYNC_SEQ.length = c.SB) ∧
    c.HB = (c.H + 7) / 8 ∧ c.FB = (c.F + 7) / 8 ∧ 4 ≤ c.H ∧ c.H + c.S + 1 < c.F ∧ c.HB ≤ c.FB ∧ 1 ≤ c.MAX ∧
    c.START_TOL < c.RUN_TOL ∧ c.F < 2 ^ c.CW ∧ c.MAX < 2 ^ c.KW) ∧
  (∀ c : Cfg, c.wf → construct c = .next (State.resetWith c)) ∧
  (∀ (c : Cfg) (pre post : List Constraint) (k : Constraint), Constraint.all = pre ++ k :: post →
    (∀ k' ∈ pre, c.meets k' = true) → c.meets k = false → construct c = .fault (.configRefused k))

/-- R173: no transaction changes the configuration. -/
def Obligations.ConfigurationIsFixed : Prop :=
  ∀ (xs : List Input) (s t : State), feed xs s = .next t → t.cfg = s.cfg

/-- R157: UNLOCKED is entered at construction, on RESET and on lock loss; LOCKED is entered only by acquisition, and
left only by lock loss and RESET. That a lock loss (R125) leaves the cursor at `F` is the spec's decision D17. -/
def Obligations.ModeChangesOnlyAsListed : Prop :=
  (∀ (c : Cfg) (s : State), construct c = .next s → s.lock = .UNLOCKED) ∧
  (∀ (x : Input) (s t : State), transact x s = .next t → decode x.tx = .reset → t.lock = .UNLOCKED) ∧
  (∀ (x : Input) (s t : State), transact x s = .next t →
    (s.lock = .UNLOCKED → t.lock = .LOCKED → ∃ b, decode x.tx = .onbit b ∧
      hamming s.cfg (shifted b s.win) ≤ s.cfg.START_TOL ∧ t.events = [.SetDecode true]) ∧
    (s.lock = .LOCKED → t.lock = .UNLOCKED → decode x.tx = .reset ∨
      ∃ b, decode x.tx = .onbit b ∧ t.cur = s.cfg.F ∧ t.cd = 0 ∧
        ∃ pre, t.events = pre ++ [.SetDecode false, .LockLost]))

/-- R22, R23: the places where the cursor and the countdown are written, and no others (the zeros of RESET are the
spec's decision D16, the cursor kept on a lock loss D17). -/
def Obligations.CountersWrittenOnlyAsListed : Prop :=
  ∀ (x : Input) (s t : State), Invariants s → transact x s = .next t →
    (t.cur = s.cur ∨ t.cur = s.cfg.S ∧ t.cd = s.cfg.MAX ∧ t.lock = .LOCKED ∨ t.cur = s.cur + 1 ∧ s.lock = .LOCKED ∨
      t.cur = 0 ∧ (decode x.tx = .reset ∨ ∃ bytes, t.events = [.EmitPayload bytes])) ∧
    (t.cd = s.cd ∨ t.cd = s.cfg.MAX ∧ t.cur = s.cfg.S ∧ t.lock = .LOCKED ∨
      t.cd + 1 = s.cd ∧ s.lock = .LOCKED ∧ s.cur + 1 = s.cfg.F ∨ t.cd = 0 ∧ decode x.tx = .reset)

/-- R67: the event list of a step is one of five lists, each produced exactly under the condition of R67's table. -/
def Obligations.EventListIsOneOfFive : Prop :=
  ∀ (x : Input) (s t : State), Invariants s → transact x s = .next t →
    (t.events = [] ∧ (decode x.tx = .nop ∨ decode x.tx = .reset ∨ ∃ b, decode x.tx = .onbit b ∧
      (s.lock = .UNLOCKED → s.cfg.START_TOL < hamming s.cfg (shifted b s.win)) ∧
      (s.lock = .LOCKED → s.cur + 1 ≠ s.cfg.F ∧
        (inEarly s.cfg (s.cur + 1) = true → s.cfg.RUN_TOL < hamming s.cfg (shifted b s.win))))) ∨
    (∃ b, decode x.tx = .onbit b ∧
      ((t.events = [.SetDecode true] ∧ s.lock = .UNLOCKED ∧ t.lock = .LOCKED ∧
        hamming s.cfg (shifted b s.win) ≤ s.cfg.START_TOL) ∨
      (∃ bytes, t.events = [.EmitHeader bytes] ∧ bytes.length = hdrLen s.cfg ∧ s.lock = .LOCKED ∧ t.lock = .LOCKED ∧
        inEarly s.cfg (s.cur + 1) = true ∧ hamming s.cfg (shifted b s.win) ≤ s.cfg.RUN_TOL) ∨
      (∃ bytes, t.events = [.EmitPayload bytes] ∧ bytes.length = payLen s.cfg ∧ s.lock = .LOCKED ∧ t.lock = .LOCKED ∧
        s.cur + 1 = s.cfg.F ∧ t.cd + 1 = s.cd ∧ 0 < t.cd) ∨
      (t.events = [.SetDecode false, .LockLost] ∧ s.lock = .LOCKED ∧ t.lock = .UNLOCKED ∧ s.cur + 1 = s.cfg.F ∧
        t.cd + 1 = s.cd ∧ t.cd = 0)))

/-- R68, R135: every frame ever emitted by an instance starts with the byte written for it: the header code, or one of
the two payload codes. -/
def Obligations.EmittedFramesCarryTheirCode : Prop :=
  ∀ (c : Cfg) (xs : List Input) (s : State), construct c = .next s → ∀ e ∈ (observe xs s).flatten,
    match e with
    | .EmitHeader bytes => bytes[0]? = some c.PFX_HDR
    | .EmitPayload bytes => bytes[0]? = some c.PFX_FLAG ∨ bytes[0]? = some c.PFX_NOFLAG
    | _ => True

/-- R64: the signal quality is read only by a payload emission while `SQ_ENABLE` is true: in every other step another
value makes no difference, and in such a step it reaches the emitted trailer only, never the block. That a lock-loss
completion does not read it is the spec's decision D8. -/
def Obligations.QualityReadOnlyByEmission : Prop :=
  ∀ (i : Instr) (s t : State) (q : Quality), exec i s = .next t →
    (∃ u, exec i { s with sq := q } = .next u ∧ u.toBlock = t.toBlock ∧ u.cfg = t.cfg) ∧
    (s.cfg.SQ_ENABLE = false ∨ (∀ pre bytes, t.events ≠ pre ++ [.EmitPayload bytes]) →
      exec i { s with sq := q } = .next { t with sq := q })

/-- R143: RESET from any state gives the state of a freshly built instance, and so is observationally identical to
one. -/
def Obligations.ResetIsFresh : Prop :=
  ∀ s t : State, exec .reset s = .next t →
    t.toBlock = (State.resetWith s.cfg).toBlock ∧ t.cfg = s.cfg ∧ ObsEq t (State.resetWith s.cfg)

/-- R33: LOCKED states with all five fields equal are observationally equivalent; UNLOCKED states with equal windows
are, when `F mod 8 = 0` and `8*HB <= H + S - 1`. -/
def Obligations.EqualWindowsAreIndistinguishable : Prop :=
  (∀ s t : State, s.cfg = t.cfg → s.lock = .LOCKED → s.toBlock = t.toBlock → ObsEq s t) ∧
  (∀ s t : State, s.cfg = t.cfg → s.cfg.wf → s.lock = .UNLOCKED → t.lock = .UNLOCKED → s.win = t.win →
    s.cfg.F % 8 = 0 → 8 * s.cfg.HB ≤ s.cfg.H + s.cfg.S - 1 → ObsEq s t)

/-- R103, whatever the number of bits by which a match comes early: under the same premises on the mask and the pattern,
the exact canonical pattern fed in UNLOCKED ends in LOCKED and is first seen as decode active, if a frame is long enough
(`2*S <= F`) that none can end within the pattern. -/
def Obligations.CanonicalPatternEndsLocked : Prop :=
  ∀ (s : State) (q : Quality), s.cfg.wf → s.lock = .UNLOCKED →
    s.cfg.MASK = BitVec.allOnes 64 >>> (64 - s.cfg.S) → s.cfg.PATTERN &&& ~~~ s.cfg.MASK = 0 → 2 * s.cfg.S ≤ s.cfg.F →
    ∃ t, feed (bitsIn ((patternBits s.cfg).map fun b => (b, q))) s = .next t ∧ t.lock = .LOCKED ∧
      s.cfg.S ≤ t.cur ∧ t.cd = s.cfg.MAX ∧
      (observe (bitsIn ((patternBits s.cfg).map fun b => (b, q))) s).flatten.head? = some (.SetDecode true)
end

