-- ==== Sys2Proof/Laws/State.lean ====
section
/-! SUPPORT. The small laws of the state: what each named update leaves in each field. -/

namespace Sys2Proof.Machine

@[simp] theorem shiftIn_lock (b : Bool) (s : State) : (shiftIn b s).lock = s.lock := rfl
@[simp] theorem shiftIn_win (b : Bool) (s : State) : (shiftIn b s).win = shifted b s.win := rfl
@[simp] theorem shiftIn_cur (b : Bool) (s : State) : (shiftIn b s).cur = s.cur := rfl
@[simp] theorem shiftIn_cd (b : Bool) (s : State) : (shiftIn b s).cd = s.cd := rfl
@[simp] theorem shiftIn_buf (b : Bool) (s : State) : (shiftIn b s).buf = s.buf := rfl
@[simp] theorem shiftIn_cfg (b : Bool) (s : State) : (shiftIn b s).cfg = s.cfg := rfl
@[simp] theorem shiftIn_inputs (b : Bool) (s : State) : (shiftIn b s).inputs = s.inputs := rfl
@[simp] theorem shiftIn_sq (b : Bool) (s : State) : (shiftIn b s).sq = s.sq := rfl
@[simp] theorem shiftIn_events (b : Bool) (s : State) : (shiftIn b s).events = s.events := rfl

@[simp] theorem emit_lock (e : Event) (s : State) : (emit e s).lock = s.lock := rfl
@[simp] theorem emit_win (e : Event) (s : State) : (emit e s).win = s.win := rfl
@[simp] theorem emit_cur (e : Event) (s : State) : (emit e s).cur = s.cur := rfl
@[simp] theorem emit_cd (e : Event) (s : State) : (emit e s).cd = s.cd := rfl
@[simp] theorem emit_buf (e : Event) (s : State) : (emit e s).buf = s.buf := rfl
@[simp] theorem emit_cfg (e : Event) (s : State) : (emit e s).cfg = s.cfg := rfl
@[simp] theorem emit_inputs (e : Event) (s : State) : (emit e s).inputs = s.inputs := rfl
@[simp] theorem emit_sq (e : Event) (s : State) : (emit e s).sq = s.sq := rfl
@[simp] theorem emit_events (e : Event) (s : State) : (emit e s).events = s.events ++ [e] := rfl

@[simp] theorem clearBuffer_lock (s : State) : (clearBuffer s).lock = s.lock := rfl
@[simp] theorem clearBuffer_win (s : State) : (clearBuffer s).win = s.win := rfl
@[simp] theorem clearBuffer_cur (s : State) : (clearBuffer s).cur = s.cur := rfl
@[simp] theorem clearBuffer_cd (s : State) : (clearBuffer s).cd = s.cd := rfl
@[simp] theorem clearBuffer_buf (s : State) : (clearBuffer s).buf = [] := rfl
@[simp] theorem clearBuffer_cfg (s : State) : (clearBuffer s).cfg = s.cfg := rfl
@[simp] theorem clearBuffer_inputs (s : State) : (clearBuffer s).inputs = s.inputs := rfl
@[simp] theorem clearBuffer_sq (s : State) : (clearBuffer s).sq = s.sq := rfl
@[simp] theorem clearBuffer_events (s : State) : (clearBuffer s).events = s.events := rfl

@[simp] theorem anchor_lock (s : State) : (anchor s).lock = s.lock := rfl
@[simp] theorem anchor_win (s : State) : (anchor s).win = s.win := rfl
@[simp] theorem anchor_cur (s : State) : (anchor s).cur = s.cfg.S := rfl
@[simp] theorem anchor_cd (s : State) : (anchor s).cd = s.cfg.MAX := rfl
@[simp] theorem anchor_buf (s : State) : (anchor s).buf = s.buf := rfl
@[simp] theorem anchor_cfg (s : State) : (anchor s).cfg = s.cfg := rfl
@[simp] theorem anchor_inputs (s : State) : (anchor s).inputs = s.inputs := rfl
@[simp] theorem anchor_sq (s : State) : (anchor s).sq = s.sq := rfl
@[simp] theorem anchor_events (s : State) : (anchor s).events = s.events := rfl

@[simp] theorem loseLock_lock (s : State) : (loseLock s).lock = .UNLOCKED := rfl
@[simp] theorem loseLock_win (s : State) : (loseLock s).win = s.win := rfl
@[simp] theorem loseLock_cur (s : State) : (loseLock s).cur = s.cur := rfl
@[simp] theorem loseLock_cd (s : State) : (loseLock s).cd = s.cd := rfl
@[simp] theorem loseLock_buf (s : State) : (loseLock s).buf = s.buf := rfl
@[simp] theorem loseLock_cfg (s : State) : (loseLock s).cfg = s.cfg := rfl
@[simp] theorem loseLock_inputs (s : State) : (loseLock s).inputs = s.inputs := rfl
@[simp] theorem loseLock_sq (s : State) : (loseLock s).sq = s.sq := rfl
@[simp] theorem loseLock_events (s : State) : (loseLock s).events = s.events ++ [.SetDecode false, .LockLost] := by simp [loseLock, emit]

@[simp] theorem startStep_lock (x : Input) (s : State) : (startStep x s).lock = s.lock := rfl
@[simp] theorem startStep_win (x : Input) (s : State) : (startStep x s).win = s.win := rfl
@[simp] theorem startStep_cur (x : Input) (s : State) : (startStep x s).cur = s.cur := rfl
@[simp] theorem startStep_cd (x : Input) (s : State) : (startStep x s).cd = s.cd := rfl
@[simp] theorem startStep_buf (x : Input) (s : State) : (startStep x s).buf = s.buf := rfl
@[simp] theorem startStep_cfg (x : Input) (s : State) : (startStep x s).cfg = s.cfg := rfl
@[simp] theorem startStep_inputs (x : Input) (s : State) : (startStep x s).inputs = s.inputs := rfl
@[simp] theorem startStep_sq (x : Input) (s : State) : (startStep x s).sq = x.sq := rfl
@[simp] theorem startStep_events (x : Input) (s : State) : (startStep x s).events = [] := rfl

@[simp] theorem resetWith_lock (c : Cfg) : (State.resetWith c).lock = .UNLOCKED := rfl
@[simp] theorem resetWith_win (c : Cfg) : (State.resetWith c).win = 0 := rfl
@[simp] theorem resetWith_cur (c : Cfg) : (State.resetWith c).cur = 0 := rfl
@[simp] theorem resetWith_cd (c : Cfg) : (State.resetWith c).cd = 0 := rfl
@[simp] theorem resetWith_buf (c : Cfg) : (State.resetWith c).buf = [] := rfl
@[simp] theorem resetWith_cfg (c : Cfg) : (State.resetWith c).cfg = c := rfl
@[simp] theorem resetWith_inputs (c : Cfg) : (State.resetWith c).inputs = [] := rfl
@[simp] theorem resetWith_sq (c : Cfg) : (State.resetWith c).sq = 0 := rfl
@[simp] theorem resetWith_events (c : Cfg) : (State.resetWith c).events = [] := rfl

@[simp] theorem startStep_toBlock (x : Input) (s : State) : (startStep x s).toBlock = s.toBlock := rfl
@[simp] theorem resetWith_toBlock (c : Cfg) : (State.resetWith c).toBlock = Block.reset := rfl

/-- Two states with the same block, configuration and ports are the same state. -/
theorem state_ext {s t : State} (hb : s.toBlock = t.toBlock) (hc : s.cfg = t.cfg) (hi : s.inputs = t.inputs)
    (hq : s.sq = t.sq) (he : s.events = t.events) : s = t := by
  cases s; cases t; simp_all

/-- Two blocks with the same five fields are the same block. -/
theorem block_ext {s t : Block} (hl : s.lock = t.lock) (hw : s.win = t.win) (hc : s.cur = t.cur) (hd : s.cd = t.cd)
    (hb : s.buf = t.buf) : s = t := by
  cases s; cases t; simp_all

end Sys2Proof.Machine
end

