-- ==== Sys2Proof/Laws/Flags.lean ====
section
/-! SUPPORT. The laws of the population count and of the masked Hamming distance. -/

namespace Sys2Proof.Machine

theorem onesBelow_le (v : Word) (n : Nat) : onesBelow v n ≤ n := by
  induction n with
  | zero => simp [onesBelow]
  | succ n ih => have h := Bool.toNat_le (v.getLsbD n); simp only [onesBelow]; omega

/-- `popcount(v)` is in `[0, 64]`. -/
theorem popcount_le (v : Word) : popcount v ≤ 64 := onesBelow_le v 64

/-- The count as the number of positions that hold a 1. -/
theorem onesBelow_eq_card (v : Word) (n : Nat) :
    onesBelow v n = ((Finset.range n).filter fun k => v.getLsbD k = true).card := by
  induction n with
  | zero => simp [onesBelow]
  | succ n ih =>
    rw [onesBelow, ih, Finset.range_add_one, Finset.filter_insert]
    by_cases h : v.getLsbD n = true
    · rw [if_pos h, Finset.card_insert_of_notMem (by simp), h]; rfl
    · rw [if_neg h, Bool.eq_false_iff.mpr h]; rfl

theorem popcount_eq_card (v : Word) :
    popcount v = ((Finset.range 64).filter fun k => v.getLsbD k = true).card := onesBelow_eq_card v 64

/-- A word whose ones are among another's has no more of them. -/
theorem popcount_mono {v w : Word} (h : ∀ k, k < 64 → v.getLsbD k = true → w.getLsbD k = true) :
    popcount v ≤ popcount w := by
  rw [popcount_eq_card, popcount_eq_card]
  refine Finset.card_le_card fun k hk => ?_
  rw [Finset.mem_filter, Finset.mem_range] at hk ⊢
  exact ⟨hk.1, h k hk.1 hk.2⟩

/-- A word whose ones are among two others' has no more than the two together. -/
theorem popcount_le_add {u v w : Word}
    (h : ∀ k, k < 64 → u.getLsbD k = true → v.getLsbD k = true ∨ w.getLsbD k = true) :
    popcount u ≤ popcount v + popcount w := by
  rw [popcount_eq_card, popcount_eq_card, popcount_eq_card]
  refine le_trans (Finset.card_le_card fun k hk => ?_) (Finset.card_union_le _ _)
  simp only [Finset.mem_union, Finset.mem_filter, Finset.mem_range] at hk ⊢
  rcases h k hk.1 hk.2 with h' | h'
  · exact Or.inl ⟨hk.1, h'⟩
  · exact Or.inr ⟨hk.1, h'⟩

theorem popcount_eq_zero_iff (v : Word) : popcount v = 0 ↔ v = 0 := by
  rw [popcount_eq_card, Finset.card_eq_zero]
  constructor
  · intro h
    apply BitVec.eq_of_getLsbD_eq
    intro k hk
    by_contra hne
    have hv : v.getLsbD k = true := by simpa using hne
    have : k ∈ (Finset.range 64).filter fun k => v.getLsbD k = true := by
      rw [Finset.mem_filter, Finset.mem_range]; exact ⟨hk, hv⟩
    rw [h] at this
    exact absurd this (Finset.notMem_empty k)
  · rintro rfl
    ext k; simp

/-- The distance is 0 exactly when the masked window is the pattern. -/
theorem hamming_eq_zero_iff (c : Cfg) (win : Word) : hamming c win = 0 ↔ win &&& c.MASK = c.PATTERN := by
  unfold hamming
  rw [popcount_eq_zero_iff]
  exact BitVec.xor_eq_zero_iff

theorem getLsbD_diff (c : Cfg) (win : Word) (k : Nat) :
    ((win &&& c.MASK) ^^^ c.PATTERN).getLsbD k = ((win.getLsbD k && c.MASK.getLsbD k) ^^ c.PATTERN.getLsbD k) := by
  simp

/-- The newest bit is bit 0; every other bit moves one place up, and bit 63 is lost (R80). -/
theorem getLsbD_shifted (b : Bool) (win : Word) (k : Nat) :
    (shifted b win).getLsbD k = if k = 0 then b else decide (k < 64) && win.getLsbD (k - 1) := by
  unfold shifted zext64
  cases k with
  | zero => cases b <;> simp
  | succ k => cases b <;> simp [BitVec.getLsbD_one]

end Sys2Proof.Machine
end

