-- ==== Sys2Proof/Laws/Memory.lean ====
section
/-! SUPPORT. The laws of the buffer as data: a read after a write, the canonical form, bytes and payload bits. -/

namespace Sys2Proof.Machine

/-! ### One byte -/

@[simp] theorem readByte_nil (a : Nat) : readByte [] a = unlistedByte := rfl

theorem readByte_filter (m : Memory) (a x : Nat) :
    readByte (m.filter fun cell => decide (cell.1 ≠ a)) x = if x = a then unlistedByte else readByte m x := by
  induction m with
  | nil => simp
  | cons c m ih =>
    obtain ⟨b, v⟩ := c
    by_cases hb : b = a <;> by_cases hx : x = b <;> simp_all [readByte]

theorem readByte_insertCell {m : Memory} {a : Nat} (v : Byte) (x : Nat) (ha : ∀ cell ∈ m, cell.1 ≠ a) :
    readByte (insertCell a v m) x = if x = a then v else readByte m x := by
  induction m with
  | nil => simp [insertCell, readByte]
  | cons c m ih =>
    obtain ⟨b, w⟩ := c
    have hb : b ≠ a := ha (b, w) (by simp)
    have ih := ih fun cell h => ha cell (by simp [h])
    by_cases hab : a < b
    · simp [insertCell, hab, readByte]
    · by_cases hx : x = b
      · subst hx; simp [insertCell, hab, readByte, hb]
      · simp [insertCell, hab, readByte, hx, ih]

/-- A read after a write: the byte written at its own address, the old byte everywhere else. -/
theorem readByte_writeByte (m : Memory) (a : Nat) (v : Byte) (x : Nat) :
    readByte (writeByte m a v) x = if x = a then v else readByte m x := by
  unfold writeByte
  by_cases hv : v = unlistedByte
  · simp only [hv, if_true, readByte_filter]
  · rw [if_neg hv, readByte_insertCell v x (by simp), readByte_filter]
    split <;> rfl

/-! ### The canonical form -/

theorem wfAbove_mono {m : Memory} {k l : Nat} (h : k ≤ l) (hm : Memory.wfAbove l m = true) :
    Memory.wfAbove k m = true := by
  cases m with
  | nil => rfl
  | cons c m =>
    obtain ⟨b, v⟩ := c
    simp only [Memory.wfAbove, Bool.and_eq_true, decide_eq_true_eq] at hm ⊢
    exact ⟨⟨by omega, hm.1.2⟩, hm.2⟩

theorem wfAbove_filter {m : Memory} (p : Host.Cell → Bool) {k : Nat} (hm : Memory.wfAbove k m = true) :
    Memory.wfAbove k (m.filter p) = true := by
  induction m generalizing k with
  | nil => rfl
  | cons c m ih =>
    obtain ⟨b, v⟩ := c
    simp only [Memory.wfAbove, Bool.and_eq_true, decide_eq_true_eq] at hm
    have h := ih hm.2
    by_cases hp : p (b, v)
    · rw [List.filter_cons_of_pos hp]
      simp only [Memory.wfAbove, Bool.and_eq_true, decide_eq_true_eq]
      exact ⟨hm.1, h⟩
    · rw [List.filter_cons_of_neg hp]
      exact wfAbove_mono (by omega) h

theorem wfAbove_insertCell {m : Memory} {a k : Nat} {v : Byte} (hk : k ≤ a) (hv : v ≠ unlistedByte)
    (ha : ∀ cell ∈ m, cell.1 ≠ a) (hm : Memory.wfAbove k m = true) :
    Memory.wfAbove k (insertCell a v m) = true := by
  induction m generalizing k with
  | nil => simp [insertCell, Memory.wfAbove, hk, hv]
  | cons c m ih =>
    obtain ⟨b, w⟩ := c
    have hb : b ≠ a := ha (b, w) (by simp)
    simp only [Memory.wfAbove, Bool.and_eq_true, decide_eq_true_eq] at hm
    by_cases hab : a < b
    · simp only [insertCell, hab, if_true, Memory.wfAbove, Bool.and_eq_true, decide_eq_true_eq]
      exact ⟨⟨hk, hv⟩, ⟨by omega, hm.1.2⟩, hm.2⟩
    · simp only [insertCell, hab, if_false, Memory.wfAbove, Bool.and_eq_true, decide_eq_true_eq]
      exact ⟨hm.1, ih (by omega) (fun cell h => ha cell (by simp [h])) hm.2⟩

/-- Writing a byte keeps the canonical form. -/
theorem wf_writeByte {m : Memory} (a : Nat) (v : Byte) (hm : m.wf = true) : (writeByte m a v).wf = true := by
  have h := wfAbove_filter (fun cell => decide (cell.1 ≠ a)) hm
  unfold writeByte
  by_cases hv : v = unlistedByte
  · simpa only [hv, if_true, Memory.wf] using h
  · simp only [hv, if_false]
    exact wfAbove_insertCell (Nat.zero_le a) hv (by simp) h

/-- An address below everything listed reads as unlisted. -/
theorem readByte_of_wfAbove {m : Memory} {k a : Nat} (hm : Memory.wfAbove k m = true) (h : a < k) :
    readByte m a = unlistedByte := by
  induction m generalizing k with
  | nil => rfl
  | cons c m ih =>
    obtain ⟨b, v⟩ := c
    simp only [Memory.wfAbove, Bool.and_eq_true, decide_eq_true_eq] at hm
    have hb : a ≠ b := by omega
    simp only [readByte, hb, if_false]
    exact ih hm.2 (by omega)

theorem wfAbove_ext {m m' : Memory} {k : Nat} (hm : Memory.wfAbove k m = true) (hm' : Memory.wfAbove k m' = true)
    (h : ∀ a, readByte m a = readByte m' a) : m = m' := by
  induction m generalizing m' k with
  | nil =>
    cases m' with
    | nil => rfl
    | cons c m' =>
      obtain ⟨b, v⟩ := c
      simp only [Memory.wfAbove, Bool.and_eq_true, decide_eq_true_eq] at hm'
      exact absurd (by simpa [readByte] using (h b).symm) hm'.1.2
  | cons c m ih =>
    obtain ⟨b, v⟩ := c
    have hm0 := hm
    simp only [Memory.wfAbove, Bool.and_eq_true, decide_eq_true_eq] at hm
    cases m' with
    | nil => exact absurd (by simpa [readByte] using h b) hm.1.2
    | cons c' m' =>
      obtain ⟨b', v'⟩ := c'
      have hm0' := hm'
      simp only [Memory.wfAbove, Bool.and_eq_true, decide_eq_true_eq] at hm'
      have hbb : b = b' := by
        rcases Nat.lt_trichotomy b b' with hlt | heq | hgt
        · have h1 := h b
          rw [readByte, if_pos rfl, readByte, if_neg (by omega),
            readByte_of_wfAbove hm'.2 (by omega)] at h1
          exact absurd h1 hm.1.2
        · exact heq
        · have h1 := h b'
          rw [readByte, if_neg (by omega), readByte, if_pos rfl,
            readByte_of_wfAbove hm.2 (by omega)] at h1
          exact absurd h1.symm hm'.1.2
      subst hbb
      have hv : v = v' := by simpa [readByte] using h b
      subst hv
      rw [ih hm.2 hm'.2 fun a => ?_]
      by_cases ha : a = b
      · subst ha
        rw [readByte_of_wfAbove hm.2 (by omega), readByte_of_wfAbove hm'.2 (by omega)]
      · simpa [readByte, ha] using h a

/-- Memories in canonical form that read alike everywhere are the same list. -/
theorem memory_ext {m m' : Memory} (hm : m.wf = true) (hm' : m'.wf = true)
    (h : ∀ a, readByte m a = readByte m' a) : m = m' := wfAbove_ext hm hm' h

/-! ### Addresses inside the buffer -/

theorem within_iff {n : Nat} {m : Memory} : m.within n = true ↔ ∀ cell ∈ m, cell.1 < n := by
  simp [Memory.within]

theorem mem_insertCell {m : Memory} {a : Nat} {v : Byte} {cell : Host.Cell} :
    cell ∈ insertCell a v m ↔ cell = (a, v) ∨ cell ∈ m := by
  induction m with
  | nil => simp [insertCell]
  | cons c m ih =>
    obtain ⟨b, w⟩ := c
    by_cases hab : a < b
    · simp [insertCell, hab]
    · simp only [insertCell, hab, if_false, List.mem_cons, ih]
      tauto

/-- Writing a byte of the buffer lists no address outside it. -/
theorem within_writeByte {n : Nat} {m : Memory} {a : Nat} (v : Byte) (ha : a < n) (hm : m.within n = true) :
    (writeByte m a v).within n = true := by
  rw [within_iff] at hm ⊢
  intro cell hc
  unfold writeByte at hc
  by_cases hv : v = unlistedByte
  · simp only [hv, if_true, List.mem_filter] at hc
    exact hm cell hc.1
  · simp only [hv, if_false, mem_insertCell, List.mem_filter] at hc
    rcases hc with rfl | hc
    · exact ha
    · exact hm cell hc.1

/-! ### Several bytes -/

/-- A read after writing a sequence of bytes. -/
theorem readByte_writeBytes (seq : List Byte) (m : Memory) (j x : Nat) :
    readByte (writeBytes m j seq) x =
      if j ≤ x ∧ x < j + seq.length then seq.getD (x - j) unlistedByte else readByte m x := by
  induction seq generalizing m j with
  | nil =>
    have h : ¬ (j ≤ x ∧ x < j + ([] : List Byte).length) := by simp only [List.length_nil]; omega
    rw [if_neg h]; rfl
  | cons v seq ih =>
    rw [writeBytes, ih, readByte_writeByte]
    by_cases hx : x = j
    · subst hx; simp
    · by_cases h1 : j + 1 ≤ x ∧ x < j + 1 + seq.length
      · have h2 : j ≤ x ∧ x < j + (v :: seq).length := by simp only [List.length_cons]; omega
        obtain ⟨d, rfl⟩ : ∃ d, x = j + 1 + d := ⟨x - (j + 1), by omega⟩
        rw [if_pos h1, if_pos h2, show j + 1 + d - (j + 1) = d by omega, show j + 1 + d - j = d + 1 by omega]
        rfl
      · have h2 : ¬ (j ≤ x ∧ x < j + (v :: seq).length) := by simp only [List.length_cons]; omega
        rw [if_neg h1, if_neg h2, if_neg hx]

theorem wf_writeBytes (seq : List Byte) {m : Memory} (j : Nat) (hm : m.wf = true) :
    (writeBytes m j seq).wf = true := by
  induction seq generalizing m j with
  | nil => exact hm
  | cons v seq ih => exact ih (j + 1) (wf_writeByte j v hm)

theorem within_writeBytes {n : Nat} (seq : List Byte) {m : Memory} {j : Nat} (hj : j + seq.length ≤ n)
    (hm : m.within n = true) : (writeBytes m j seq).within n = true := by
  induction seq generalizing m j with
  | nil => exact hm
  | cons v seq ih =>
    simp only [List.length_cons] at hj
    exact ih (by omega) (within_writeByte v (by omega) hm)

@[simp] theorem length_readBytes (m : Memory) (j n : Nat) : (readBytes m j n).length = n := by
  induction n generalizing j with
  | zero => rfl
  | succ n ih => simp [readBytes, ih]

theorem getElem_readBytes (m : Memory) (j n i : Nat) (h : i < (readBytes m j n).length) :
    (readBytes m j n)[i] = readByte m (j + i) := by
  induction n generalizing j i with
  | zero => simp at h
  | succ n ih =>
    cases i with
    | zero => rfl
    | succ i =>
      simp only [readBytes, List.getElem_cons_succ]
      rw [ih]
      congr 1; omega

/-- Two memories that read alike over a range give the same byte sequence. -/
theorem readBytes_congr {m m' : Memory} {j n : Nat} (h : ∀ a, j ≤ a → a < j + n → readByte m a = readByte m' a) :
    readBytes m j n = readBytes m' j n := by
  induction n generalizing j with
  | zero => rfl
  | succ n ih =>
    simp only [readBytes]
    rw [h j (Nat.le_refl j) (by omega), ih fun a h1 h2 => h a (by omega) (by omega)]

/-- Reading a range in two pieces. -/
theorem readBytes_add (m : Memory) (j k n : Nat) :
    readBytes m j (k + n) = readBytes m j k ++ readBytes m (j + k) n := by
  induction k generalizing j with
  | zero => simp [readBytes]
  | succ k ih =>
    rw [show k + 1 + n = (k + n) + 1 by omega]
    simp only [readBytes, List.cons_append]
    rw [ih, show j + 1 + k = j + (k + 1) by omega]

/-! ### Payload bits -/

theorem getLsbD_maskOfBit (i : Nat) {p : Nat} (hp : p < 8) :
    (maskOfBit i).getLsbD p = decide (p = 7 - i % 8) := by
  have hi : i % 8 < 8 := Nat.mod_lt i (by omega)
  unfold maskOfBit
  generalize i % 8 = r at hi
  interval_cases r <;> interval_cases p <;> rfl

/-- Setting a bit's place: the bit there is `b`, the seven others are as before (R43). -/
theorem getLsbD_putBit (v : Byte) (i : Nat) (b : Bool) {p : Nat} (hp : p < 8) :
    (putBit v i b).getLsbD p = if p = 7 - i % 8 then b else v.getLsbD p := by
  have hm := getLsbD_maskOfBit i hp
  cases b
  · rw [putBit, if_neg Bool.false_ne_true, BitVec.getLsbD_and, BitVec.getLsbD_not, hm]
    by_cases h : p = 7 - i % 8
    · simp [h]
    · simp [h, hp]
  · rw [putBit, if_pos rfl, BitVec.getLsbD_or, hm]
    by_cases h : p = 7 - i % 8 <;> simp [h]

/-- A buffer byte after one payload bit is written: only the bit's own byte may differ. -/
theorem readByte_putPayloadBit (m : Memory) (i : Nat) (b : Bool) (a : Nat) :
    readByte (putPayloadBit m i b) a =
      if a = byteOfBit i then putBit (readByte m (byteOfBit i)) i b else readByte m a :=
  readByte_writeByte _ _ _ _

/-- A payload bit after one payload bit is written (R43). -/
theorem payloadBit_putPayloadBit (m : Memory) (i : Nat) (b : Bool) (k : Nat) :
    payloadBit (putPayloadBit m i b) k = if k = i then b else payloadBit m k := by
  unfold payloadBit
  rw [readByte_putPayloadBit]
  by_cases hbyte : byteOfBit k = byteOfBit i
  · rw [if_pos hbyte, getLsbD_putBit _ _ _ (by omega)]
    have hiff : (7 - k % 8 = 7 - i % 8) ↔ k = i := by unfold byteOfBit at hbyte; omega
    by_cases hk : k = i
    · rw [if_pos hk, if_pos (hiff.mpr hk)]
    · rw [if_neg hk, if_neg (fun h => hk (hiff.mp h)), hbyte]
  · have hk : k ≠ i := fun h => hbyte (by rw [h])
    rw [if_neg hbyte, if_neg hk]

/-- The prefix byte is no payload bit's byte (R42). -/
theorem byteOfBit_pos (i : Nat) : 1 ≤ byteOfBit i := by unfold byteOfBit; omega

@[simp] theorem readByte_zero_putPayloadBit (m : Memory) (i : Nat) (b : Bool) :
    readByte (putPayloadBit m i b) 0 = readByte m 0 := by
  have h := byteOfBit_pos i
  rw [readByte_putPayloadBit, if_neg (by omega)]

theorem wf_putPayloadBit {m : Memory} (i : Nat) (b : Bool) (hm : m.wf = true) :
    (putPayloadBit m i b).wf = true := wf_writeByte _ _ hm

theorem within_putPayloadBit {n : Nat} {m : Memory} {i : Nat} (b : Bool) (h : byteOfBit i < n)
    (hm : m.within n = true) : (putPayloadBit m i b).within n = true := within_writeByte _ h hm

/-- The eight payload bits of a byte fix the byte. -/
theorem readByte_eq_of_payloadBits {m m' : Memory} {q : Nat}
    (h : ∀ j, j < 8 → payloadBit m (8 * q + j) = payloadBit m' (8 * q + j)) :
    readByte m (1 + q) = readByte m' (1 + q) := by
  apply BitVec.eq_of_getLsbD_eq
  intro p hp
  have hj := h (7 - p) (by omega)
  have hbyte : byteOfBit (8 * q + (7 - p)) = 1 + q := by unfold byteOfBit; omega
  have hbit : 7 - (8 * q + (7 - p)) % 8 = p := by omega
  unfold payloadBit at hj
  rw [hbyte, hbit] at hj
  exact hj

/-- A byte read at a payload address, bit by bit (R42). -/
theorem getLsbD_readByte_eq_payloadBit (m : Memory) (q : Nat) {p : Nat} (hp : p < 8) :
    (readByte m (1 + q)).getLsbD p = payloadBit m (8 * q + (7 - p)) := by
  have hbyte : byteOfBit (8 * q + (7 - p)) = 1 + q := by unfold byteOfBit; omega
  have hbit : 7 - (8 * q + (7 - p)) % 8 = p := by omega
  unfold payloadBit
  rw [hbyte, hbit]

end Sys2Proof.Machine
end

