-- ==== Sys2Proof/Laws/WellFormed.lean ====
section
/-! SUPPORT. What a well-formed configuration gives: R176 as one conjunction, and the bounds the steps need. -/

namespace Sys2Proof

open Machine

/-- `c` is well-formed exactly when it meets every constraint. -/
theorem Cfg.wf_iff_meets (c : Cfg) : c.wf ↔ ∀ k, c.meets k = true := by
  unfold Cfg.wf Cfg.firstBroken
  rw [List.find?_eq_none]
  refine ⟨fun h k => ?_, fun h k _ => ?_⟩
  · have hk := h k (by cases k <;> decide)
    simpa using hk
  · simpa using h k

/-- R176 written out. -/
theorem Cfg.wf_iff (c : Cfg) : c.wf ↔
    (2 ≤ c.S ∧ c.S ≤ 64) ∧ (c.SB = ceil8 c.S ∧ c.SYNC_SEQ.length = c.SB) ∧ c.HB = ceil8 c.H ∧ c.FB = ceil8 c.F ∧
    4 ≤ c.H ∧ c.H + c.S + 1 < c.F ∧ c.HB ≤ c.FB ∧ 1 ≤ c.MAX ∧ c.START_TOL < c.RUN_TOL ∧
    (c.F < 2 ^ c.CW ∧ c.MAX < 2 ^ c.KW) := by
  rw [Cfg.wf_iff_meets]
  refine ⟨fun h => ?_, fun h k => ?_⟩
  · have h1 := h .WF_S; have h2 := h .WF_SB; have h3 := h .WF_HB; have h4 := h .WF_FB
    have h5 := h .WF_NONOVERLAP; have h6 := h .WF_EARLY_IN_FRAME; have h7 := h .WF_HB_FB; have h8 := h .WF_MAX
    have h9 := h .WF_TOL; have h10 := h .WF_WIDTHS
    simp only [Cfg.meets, decide_eq_true_eq] at h1 h2 h3 h4 h5 h6 h7 h8 h9 h10
    exact ⟨h1, h2, h3, h4, h5, h6, h7, h8, h9, h10⟩
  · obtain ⟨h1, h2, h3, h4, h5, h6, h7, h8, h9, h10⟩ := h
    cases k <;> simpa only [Cfg.meets, decide_eq_true_eq]

/-- The linear facts of a well-formed configuration, with no division left (R176). -/
theorem Cfg.wf_bounds {c : Cfg} (h : c.wf) :
    2 ≤ c.S ∧ c.S ≤ 64 ∧ c.S ≤ 8 * c.SB ∧ 8 * c.SB < c.S + 8 ∧ c.SYNC_SEQ.length = c.SB ∧
    c.H ≤ 8 * c.HB ∧ 8 * c.HB < c.H + 8 ∧ c.F ≤ 8 * c.FB ∧ 8 * c.FB < c.F + 8 ∧
    4 ≤ c.H ∧ c.H + c.S + 1 < c.F ∧ c.HB ≤ c.FB ∧ c.SB ≤ c.FB ∧ 1 ≤ c.MAX ∧ c.START_TOL < c.RUN_TOL := by
  obtain ⟨h1, h2, h3, h4, h5, h6, h7, h8, h9, -⟩ := (Cfg.wf_iff c).mp h
  unfold ceil8 at *
  omega

theorem bufBytes_eq (c : Cfg) : bufBytes c = c.FB + 3 := by unfold bufBytes; omega

/-- Under a well-formed configuration the first `n + 1` bytes lie in the buffer, for `n` up to `FB + 2`. -/
theorem inBuffer_zero {c : Cfg} {n : Nat} (h : n ≤ c.FB + 3) : inBuffer c 0 n = true := by
  unfold inBuffer; rw [bufBytes_eq]; simp only [decide_eq_true_eq]; omega

theorem inBuffer_sync {c : Cfg} (h : c.wf) : inBuffer c 1 c.SYNC_SEQ.length = true := by
  have hb := Cfg.wf_bounds h
  unfold inBuffer; rw [bufBytes_eq]; simp only [decide_eq_true_eq]; omega

theorem hdrLen_le {c : Cfg} (h : c.wf) : hdrLen c ≤ c.FB + 3 := by
  have hb := Cfg.wf_bounds h
  unfold hdrLen; omega

theorem payLen_le (c : Cfg) : payLen c ≤ c.FB + 3 := by unfold payLen; split <;> omega

/-- A cursor below `F` designates a byte of the buffer's payload (R152). -/
theorem byteOfBit_le {c : Cfg} (h : c.wf) {i : Nat} (hi : i < c.F) : byteOfBit i ≤ c.FB := by
  have hb := Cfg.wf_bounds h
  unfold byteOfBit; omega

theorem byteOfBit_lt {c : Cfg} (h : c.wf) {i : Nat} (hi : i < c.F) : byteOfBit i < bufBytes c := by
  have hb := byteOfBit_le h hi
  rw [bufBytes_eq]; omega

theorem inEarly_iff (c : Cfg) (k : Nat) : inEarly c k = true ↔ c.H + c.S ≤ k + 1 ∧ k ≤ c.H + c.S + 1 := by
  unfold inEarly earlyLo earlyHi; simp only [decide_eq_true_eq]; omega

theorem inInpos_iff (c : Cfg) (k : Nat) : inInpos c k = true ↔ c.S ≤ k + 2 ∧ k ≤ c.S + 2 := by
  unfold inInpos inposLo inposHi; simp only [decide_eq_true_eq]; omega

/-- The two cursor windows do not overlap (R120). -/
theorem not_inInpos_of_inEarly {c : Cfg} (h : c.wf) {k : Nat} (hk : inEarly c k = true) : inInpos c k = false := by
  have hb := Cfg.wf_bounds h
  rw [Bool.eq_false_iff]
  intro hi
  rw [inEarly_iff] at hk; rw [inInpos_iff] at hi
  omega

/-- No cursor window reaches the end of the frame (R176, `WF_EARLY_IN_FRAME`). -/
theorem frame_end_in_no_window {c : Cfg} (h : c.wf) : inEarly c c.F = false ∧ inInpos c c.F = false := by
  have hb := Cfg.wf_bounds h
  constructor <;> rw [Bool.eq_false_iff] <;> intro hi
  · rw [inEarly_iff] at hi; omega
  · rw [inInpos_iff] at hi; omega

/-- The anchor position lies in the in-position window. -/
theorem inInpos_S (c : Cfg) : inInpos c c.S = true := by rw [inInpos_iff]; omega

end Sys2Proof
end

