-- ==== Sys2Proof/Laws/Ops.lean ====
section
/-! SUPPORT. The laws of the shared operations: for each, what it answers inside the buffer, and everything it can do
if it answers a state. -/

namespace Sys2Proof.Machine

/-! ### Chaining -/

@[simp] theorem ok_bind {α β : Type} (a : α) (f : α → Except Fault β) : (Except.ok a >>= f) = f a := rfl

@[simp] theorem error_bind {α β : Type} (e : Fault) (f : α → Except Fault β) :
    ((Except.error e : Except Fault α) >>= f) = .error e := rfl

/-- A chain whose first part answers goes on with that answer. -/
theorem bind_of_ok {α β : Type} {x : Except Fault α} {a : α} (h : x = .ok a) (f : α → Except Fault β) :
    (x >>= f) = f a := by rw [h]; rfl

/-- A chain answers only if its first part does. -/
theorem bind_eq_ok {α β : Type} {x : Except Fault α} {f : α → Except Fault β} {b : β} :
    (x >>= f) = .ok b ↔ ∃ a, x = .ok a ∧ f a = .ok b := by
  cases x with
  | error e => simp
  | ok a => simp

@[simp] theorem answer_ok (s : State) : answer (.ok s) = .next s := rfl

theorem answer_eq_next {x : Except Fault State} {t : State} : answer x = .next t ↔ x = .ok t := by
  cases x <;> simp [answer]

/-! ### The buffer -/

theorem memRead_ok {j n : Nat} {s : State} (h : inBuffer s.cfg j n = true) :
    memRead j n s = .ok (readBytes s.buf j n) := by simp only [memRead, h, if_true]

theorem memWrite_ok {j : Nat} {seq : List Byte} {s : State} (h : inBuffer s.cfg j seq.length = true) :
    memWrite j seq s = .ok { s with buf := writeBytes s.buf j seq } := by simp only [memWrite, h, if_true]

theorem bitWrite_ok {i : Nat} {b : Bool} {s : State} (h : byteOfBit i < bufBytes s.cfg) :
    bitWrite i b s = .ok { s with buf := putPayloadBit s.buf i b } := by simp only [bitWrite, h, if_true]

/-- Everything a memory write can do: write the bytes, inside the buffer. -/
theorem memWrite_eq_ok {j : Nat} {seq : List Byte} {s t : State} :
    memWrite j seq s = .ok t ↔
      inBuffer s.cfg j seq.length = true ∧ t = { s with buf := writeBytes s.buf j seq } := by
  unfold memWrite
  by_cases h : inBuffer s.cfg j seq.length = true
  · simp [h, eq_comm]
  · simp [h]

/-- Everything a bit write can do: write the bit, inside the buffer. -/
theorem bitWrite_eq_ok {i : Nat} {b : Bool} {s t : State} :
    bitWrite i b s = .ok t ↔ byteOfBit i < bufBytes s.cfg ∧ t = { s with buf := putPayloadBit s.buf i b } := by
  unfold bitWrite
  by_cases h : byteOfBit i < bufBytes s.cfg
  · simp [h, eq_comm]
  · simp [h]

/-- Everything a memory read can answer. -/
theorem memRead_eq_ok {j n : Nat} {s : State} {bytes : List Byte} :
    memRead j n s = .ok bytes ↔ inBuffer s.cfg j n = true ∧ bytes = readBytes s.buf j n := by
  unfold memRead
  by_cases h : inBuffer s.cfg j n = true
  · simp [h, eq_comm]
  · simp [h]

/-! ### The full anchor -/

/-- The full anchor under a well-formed configuration (R101). -/
theorem fullAnchor_ok {s : State} (h : s.cfg.wf) :
    fullAnchor s = .ok (anchor { s with buf := writeBytes s.buf 1 s.cfg.SYNC_SEQ }) := by
  have hl : s.cfg.SYNC_SEQ.length = s.cfg.SB := (Cfg.wf_bounds h).2.2.2.2.1
  unfold fullAnchor writeSync
  rw [if_pos hl, memWrite_ok (inBuffer_sync h)]
  rfl

/-- Everything the full anchor can do. -/
theorem fullAnchor_eq_ok {s t : State} (h : fullAnchor s = .ok t) :
    t = anchor { s with buf := writeBytes s.buf 1 s.cfg.SYNC_SEQ } := by
  unfold fullAnchor writeSync at h
  split at h
  · obtain ⟨u, hu, hut⟩ := bind_eq_ok.mp h
    obtain ⟨-, rfl⟩ := memWrite_eq_ok.mp hu
    exact (Except.ok.inj hut).symm
  · simp at h

end Sys2Proof.Machine
end

