-- ==== Sys2Proof/Laws/Onbit.lean ====
section
/-! SUPPORT. What ONBIT does, once: in UNLOCKED, and in each of the four cases of a LOCKED step under a well-formed
configuration; and what every ONBIT leaves alone. -/

namespace Sys2Proof.Machine

/-! ### UNLOCKED -/

/-- Acquisition under a well-formed configuration (R100). -/
theorem acquire_ok {s : State} (h : s.cfg.wf) :
    acquire s = .ok (emit (.SetDecode true)
      { anchor { s with buf := writeBytes s.buf 1 s.cfg.SYNC_SEQ } with lock := .LOCKED }) := by
  unfold acquire; rw [fullAnchor_ok h]; rfl

theorem acquire_eq_ok {s t : State} (h : acquire s = .ok t) :
    t = emit (.SetDecode true) { anchor { s with buf := writeBytes s.buf 1 s.cfg.SYNC_SEQ } with lock := .LOCKED } := by
  obtain ⟨u, hu, hut⟩ := bind_eq_ok.mp h
  rw [fullAnchor_eq_ok hu] at hut
  exact (Except.ok.inj hut).symm

/-! ### The parts of a LOCKED step -/

/-- The state after parts 1 and 2 of a LOCKED step: the window shifted, the bit written, the cursor advanced. -/
def written (b : Bool) (s : State) : State :=
  { s with win := shifted b s.win, buf := putPayloadBit s.buf s.cur b, cur := s.cur + 1 }

/-- The state at a frame's end, with the countdown decremented (R124). -/
def counted (b : Bool) (s : State) : State := { written b s with cd := countdownPred s.cfg s.cd }

/-- The state after an early resync (R114). -/
def flushed (s : State) : State :=
  anchor { s with
    buf := writeBytes (writeByte s.buf 0 s.cfg.PFX_HDR) 1 s.cfg.SYNC_SEQ
    events := s.events ++ [.EmitHeader (s.cfg.PFX_HDR :: readBytes s.buf 1 s.cfg.HB)] }

/-- The trailer bytes a payload frame carries (R66, R126). -/
def trailerBytes (s : State) : List Byte := if s.cfg.SQ_ENABLE then [qHigh s.sq, qLow s.sq] else []

/-- The bytes of a payload frame emitted now, with the countdown already decremented (R126). -/
def payloadFrame (s : State) : List Byte :=
  payloadPfx s.cfg s.cd :: (readBytes s.buf 1 s.cfg.FB ++ trailerBytes s)

/-- The state after a payload emission (R126). -/
def emitted (s : State) : State :=
  { s with buf := [], cur := 0, events := s.events ++ [.EmitPayload (payloadFrame s)] }

theorem readBytes_writeByte_zero (m : Memory) (v : Byte) (n : Nat) :
    readBytes (writeByte m 0 v) 0 (1 + n) = v :: readBytes m 1 n := by
  rw [Nat.add_comm 1 n, readBytes, readByte_writeByte, if_pos rfl]
  congr 1
  exact readBytes_congr fun a h1 _ => by rw [readByte_writeByte, if_neg (by omega)]

/-- An early resync under a well-formed configuration. -/
theorem flushHeader_ok {s : State} (h : s.cfg.wf) : flushHeader s = .ok (flushed s) := by
  have h1 : memWrite 0 [s.cfg.PFX_HDR] s = .ok { s with buf := writeByte s.buf 0 s.cfg.PFX_HDR } :=
    memWrite_ok (inBuffer_zero (by simp))
  have h2 : memRead 0 (hdrLen s.cfg) { s with buf := writeByte s.buf 0 s.cfg.PFX_HDR } =
      .ok (s.cfg.PFX_HDR :: readBytes s.buf 1 s.cfg.HB) := by
    rw [← readBytes_writeByte_zero]
    exact memRead_ok (inBuffer_zero (hdrLen_le h))
  exact (bind_of_ok h1 _).trans ((bind_of_ok h2 _).trans (fullAnchor_ok h))

theorem readBytes_payload (m : Memory) (v : Byte) (n : Nat) (q : Quality) :
    readBytes (writeBytes (writeByte m 0 v) (1 + n) [qHigh q, qLow q]) 0 (1 + n + 2) =
      v :: (readBytes m 1 n ++ [qHigh q, qLow q]) := by
  have h0 : ∀ a, a < 1 + n → readByte (writeBytes (writeByte m 0 v) (1 + n) [qHigh q, qLow q]) a =
      readByte (writeByte m 0 v) a := fun a ha => by
    rw [readByte_writeBytes, if_neg (by omega)]
  rw [readBytes_add, readBytes_congr (fun a _ h2 => h0 a (by omega)), readBytes_writeByte_zero]
  simp only [readBytes, readByte_writeBytes, List.length_cons, List.length_nil, List.cons_append]
  simp

/-- A payload emission: inside the buffer whatever the configuration, since `BUFB = FB + 3`. -/
theorem emitFrame_ok (s : State) : emitFrame s = .ok (emitted s) := by
  have h1 : memWrite 0 [payloadPfx s.cfg s.cd] s = .ok { s with buf := writeByte s.buf 0 (payloadPfx s.cfg s.cd) } :=
    memWrite_ok (inBuffer_zero (by simp))
  refine (bind_of_ok h1 _).trans ?_
  by_cases hq : s.cfg.SQ_ENABLE = true
  · have h2 : embedQuality { s with buf := writeByte s.buf 0 (payloadPfx s.cfg s.cd) } =
        .ok { s with buf := (writeBytes (writeByte s.buf 0 (payloadPfx s.cfg s.cd)) (1 + s.cfg.FB)
          [qHigh s.sq, qLow s.sq]) } :=
      (if_pos hq).trans (memWrite_ok (by unfold inBuffer; rw [bufBytes_eq]; simp; omega))
    have h3 : readBytes (writeBytes (writeByte s.buf 0 (payloadPfx s.cfg s.cd)) (1 + s.cfg.FB)
        [qHigh s.sq, qLow s.sq]) 0 (payLen s.cfg) = payloadFrame s := by
      unfold payLen payloadFrame trailerBytes
      rw [if_pos hq, if_pos hq, readBytes_payload]
    refine (bind_of_ok h2 _).trans ((bind_of_ok (memRead_ok (inBuffer_zero (payLen_le _))) _).trans ?_)
    exact congrArg (fun x => Except.ok { s with buf := [], cur := 0, events := s.events ++ [Event.EmitPayload x] }) h3
  · have h2 : embedQuality { s with buf := writeByte s.buf 0 (payloadPfx s.cfg s.cd) } =
        .ok { s with buf := writeByte s.buf 0 (payloadPfx s.cfg s.cd) } := if_neg hq
    have h3 : readBytes (writeByte s.buf 0 (payloadPfx s.cfg s.cd)) 0 (payLen s.cfg) = payloadFrame s := by
      unfold payLen payloadFrame trailerBytes
      rw [if_neg hq, if_neg hq, Nat.add_zero, readBytes_writeByte_zero, List.append_nil]
    refine (bind_of_ok h2 _).trans ((bind_of_ok (memRead_ok (inBuffer_zero (payLen_le _))) _).trans ?_)
    exact congrArg (fun x => Except.ok { s with buf := [], cur := 0, events := s.events ++ [Event.EmitPayload x] }) h3

theorem writeBit_ok {b : Bool} {s : State} (h : byteOfBit s.cur < bufBytes s.cfg) :
    writeBit b (shiftIn b s) = .ok (written b s) :=
  bind_of_ok (bitWrite_ok (s := shiftIn b s) h) _

/-- A LOCKED step is its parts 3 to 5 after the bit is written. -/
theorem onbitLocked_eq {b : Bool} {s : State} (h : byteOfBit s.cur < bufBytes s.cfg) :
    onbitLocked b s =
      (earlyResync (hamming s.cfg (shifted b s.win)) (written b s) >>= fun u =>
        completion (inposResync (hamming s.cfg (shifted b s.win)) u)) := by
  unfold onbitLocked
  simp only [writeBit_ok h, ok_bind]
  rfl

/-! ### The four cases of a LOCKED step -/

section
variable {b : Bool} {s : State} (hw : s.cfg.wf) (hc : s.cur < s.cfg.F)
include hw hc

/-- Early resync: the in-position check fires too and changes nothing (R119), and the frame does not end. -/
theorem onbitLocked_early (he : inEarly s.cfg (s.cur + 1) = true)
    (hm : matchRun s.cfg (hamming s.cfg (shifted b s.win)) = true) :
    onbitLocked b s = .ok (flushed (written b s)) := by
  have hb := Cfg.wf_bounds hw
  rw [onbitLocked_eq (byteOfBit_lt hw hc)]
  have h1 : earlyResync (hamming s.cfg (shifted b s.win)) (written b s) = .ok (flushed (written b s)) := by
    unfold earlyResync
    exact (if_pos (by rw [Bool.and_eq_true]; exact ⟨he, hm⟩)).trans (flushHeader_ok (s := written b s) hw)
  rw [h1, ok_bind]
  have h2 : inposResync (hamming s.cfg (shifted b s.win)) (flushed (written b s)) = flushed (written b s) := by
    unfold inposResync
    split <;> rfl
  rw [h2]
  unfold completion
  exact if_neg (show ¬ s.cfg.S = s.cfg.F by omega)

/-- In-position resync: registers only, and the frame does not end. -/
theorem onbitLocked_inpos (he : inInpos s.cfg (s.cur + 1) = true)
    (hm : matchRun s.cfg (hamming s.cfg (shifted b s.win)) = true) :
    onbitLocked b s = .ok (anchor (written b s)) := by
  have hb := Cfg.wf_bounds hw
  rw [onbitLocked_eq (byteOfBit_lt hw hc)]
  have h1 : earlyResync (hamming s.cfg (shifted b s.win)) (written b s) = .ok (written b s) := by
    unfold earlyResync
    have hne : inEarly s.cfg (s.cur + 1) = false := by
      rw [Bool.eq_false_iff]; intro h
      rw [not_inInpos_of_inEarly hw h] at he
      exact Bool.false_ne_true he
    rw [if_neg (by rw [Bool.and_eq_true]; intro h; rw [show (written b s).cfg = s.cfg from rfl] at h
                   exact Bool.false_ne_true (hne ▸ h.1))]
  have h2 : inposResync (hamming s.cfg (shifted b s.win)) (written b s) = anchor (written b s) := by
    unfold inposResync
    rw [if_pos (by rw [Bool.and_eq_true]; exact ⟨he, hm⟩)]
  rw [h1, ok_bind, h2]
  unfold completion
  exact if_neg (show ¬ s.cfg.S = s.cfg.F by omega)

/-- No resync: parts 3 and 4 do nothing. -/
theorem onbitLocked_noResync
    (hn : matchRun s.cfg (hamming s.cfg (shifted b s.win)) = true →
      inEarly s.cfg (s.cur + 1) = false ∧ inInpos s.cfg (s.cur + 1) = false) :
    onbitLocked b s = completion (written b s) := by
  rw [onbitLocked_eq (byteOfBit_lt hw hc)]
  have h1 : earlyResync (hamming s.cfg (shifted b s.win)) (written b s) = .ok (written b s) := by
    unfold earlyResync
    rw [if_neg]
    rw [Bool.and_eq_true]
    exact fun h => Bool.false_ne_true ((hn h.2).1 ▸ h.1)
  have h2 : inposResync (hamming s.cfg (shifted b s.win)) (written b s) = written b s := by
    unfold inposResync
    rw [if_neg]
    rw [Bool.and_eq_true]
    exact fun h => Bool.false_ne_true ((hn h.2).2 ▸ h.1)
  rw [h1, ok_bind, h2]

/-- No resync and the frame goes on. -/
theorem onbitLocked_plain
    (hn : matchRun s.cfg (hamming s.cfg (shifted b s.win)) = true →
      inEarly s.cfg (s.cur + 1) = false ∧ inInpos s.cfg (s.cur + 1) = false)
    (hF : s.cur + 1 ≠ s.cfg.F) : onbitLocked b s = .ok (written b s) := by
  rw [onbitLocked_noResync hw hc hn]
  exact if_neg hF

omit hc in
/-- The frame ends and a frame is emitted (R126). -/
theorem onbitLocked_emits (hF : s.cur + 1 = s.cfg.F) (hd : countdownPred s.cfg s.cd ≠ 0) :
    onbitLocked b s = .ok (emitted (counted b s)) := by
  rw [onbitLocked_noResync hw (by omega) (fun _ => hF ▸ frame_end_in_no_window hw)]
  unfold completion
  rw [if_pos (show (written b s).cur = (written b s).cfg.F from hF)]
  exact (if_neg hd).trans (emitFrame_ok _)

omit hc in
/-- The frame ends and lock is lost (R125). -/
theorem onbitLocked_loses (hF : s.cur + 1 = s.cfg.F) (hd : countdownPred s.cfg s.cd = 0) :
    onbitLocked b s = .ok (loseLock (counted b s)) := by
  rw [onbitLocked_noResync hw (by omega) (fun _ => hF ▸ frame_end_in_no_window hw)]
  unfold completion
  rw [if_pos (show (written b s).cur = (written b s).cfg.F from hF)]
  exact if_pos hd

/-- Everything a LOCKED step can do under a well-formed configuration, each case with the condition it happens
under. -/
theorem onbitLocked_cases {b : Bool} :
    (inEarly s.cfg (s.cur + 1) = true ∧ matchRun s.cfg (hamming s.cfg (shifted b s.win)) = true ∧
      onbitLocked b s = .ok (flushed (written b s))) ∨
    (inInpos s.cfg (s.cur + 1) = true ∧ matchRun s.cfg (hamming s.cfg (shifted b s.win)) = true ∧
      onbitLocked b s = .ok (anchor (written b s))) ∨
    (s.cur + 1 = s.cfg.F ∧ countdownPred s.cfg s.cd = 0 ∧
      onbitLocked b s = .ok (loseLock (counted b s))) ∨
    (s.cur + 1 = s.cfg.F ∧ countdownPred s.cfg s.cd ≠ 0 ∧
      onbitLocked b s = .ok (emitted (counted b s))) ∨
    (s.cur + 1 < s.cfg.F ∧
      (matchRun s.cfg (hamming s.cfg (shifted b s.win)) = true →
        inEarly s.cfg (s.cur + 1) = false ∧ inInpos s.cfg (s.cur + 1) = false) ∧
      onbitLocked b s = .ok (written b s)) := by
  by_cases hF : s.cur + 1 = s.cfg.F
  · by_cases hd : countdownPred s.cfg s.cd = 0
    · exact .inr (.inr (.inl ⟨hF, hd, onbitLocked_loses hw hF hd⟩))
    · exact .inr (.inr (.inr (.inl ⟨hF, hd, onbitLocked_emits hw hF hd⟩)))
  · by_cases hm : matchRun s.cfg (hamming s.cfg (shifted b s.win)) = true
    · cases he : inEarly s.cfg (s.cur + 1) with
      | true => exact .inl ⟨rfl, hm, onbitLocked_early hw hc he hm⟩
      | false =>
        cases hi : inInpos s.cfg (s.cur + 1) with
        | true => exact .inr (.inl ⟨rfl, hm, onbitLocked_inpos hw hc hi hm⟩)
        | false =>
          exact .inr (.inr (.inr (.inr ⟨by omega, fun _ => ⟨rfl, rfl⟩,
            onbitLocked_plain hw hc (fun _ => ⟨he, hi⟩) hF⟩)))
    · exact .inr (.inr (.inr (.inr ⟨by omega, fun h => absurd h hm,
        onbitLocked_plain hw hc (fun h => absurd h hm) hF⟩)))

end

/-- Everything an UNLOCKED step can do under a well-formed configuration. -/
theorem onbitUnlocked_cases {b : Bool} {s : State} (hw : s.cfg.wf) :
    (matchStart s.cfg (hamming s.cfg (shifted b s.win)) = true ∧
      onbitUnlocked b s = .ok (emit (.SetDecode true)
        { anchor { shiftIn b s with buf := writeBytes s.buf 1 s.cfg.SYNC_SEQ } with lock := .LOCKED })) ∨
    (matchStart s.cfg (hamming s.cfg (shifted b s.win)) = false ∧ onbitUnlocked b s = .ok (shiftIn b s)) := by
  unfold onbitUnlocked
  cases hm : matchStart s.cfg (hamming s.cfg (shifted b s.win)) with
  | true =>
    refine .inl ⟨rfl, ?_⟩
    show (if matchStart s.cfg (hamming s.cfg (shifted b s.win)) = true then _ else _) = _
    rw [if_pos hm, acquire_ok (s := shiftIn b s) hw]
    rfl
  | false =>
    refine .inr ⟨rfl, ?_⟩
    show (if matchStart s.cfg (hamming s.cfg (shifted b s.win)) = true then _ else _) = _
    rw [if_neg (by rw [hm]; exact Bool.false_ne_true)]

/-! ### What every part of ONBIT leaves alone, whatever the configuration -/

/-- `t` has the configuration, the pending inputs, the signal quality and the window of `s`. -/
def SameOutside (s t : State) : Prop := t.cfg = s.cfg ∧ t.inputs = s.inputs ∧ t.sq = s.sq ∧ t.win = s.win

theorem SameOutside.rfl' (s : State) : SameOutside s s := ⟨rfl, rfl, rfl, rfl⟩

theorem SameOutside.trans {s t u : State} (h1 : SameOutside s t) (h2 : SameOutside t u) : SameOutside s u :=
  ⟨h2.1.trans h1.1, h2.2.1.trans h1.2.1, h2.2.2.1.trans h1.2.2.1, h2.2.2.2.trans h1.2.2.2⟩

theorem flushHeader_sameOutside {s t : State} (h : flushHeader s = .ok t) : SameOutside s t := by
  obtain ⟨u, hu, h⟩ := bind_eq_ok.mp h
  obtain ⟨bytes, -, h⟩ := bind_eq_ok.mp h
  obtain ⟨-, rfl⟩ := memWrite_eq_ok.mp hu
  rw [fullAnchor_eq_ok h]
  exact ⟨rfl, rfl, rfl, rfl⟩

theorem completion_sameOutside {s t : State} (h : completion s = .ok t) : SameOutside s t := by
  unfold completion at h
  split at h
  · dsimp only at h
    split at h
    · rw [← Except.ok.inj h]; exact ⟨rfl, rfl, rfl, rfl⟩
    · rw [emitFrame_ok] at h
      rw [← Except.ok.inj h]; exact ⟨rfl, rfl, rfl, rfl⟩
  · rw [← Except.ok.inj h]; exact SameOutside.rfl' _

/-- A LOCKED step, split into the bit write and the rest; each answers only inside the buffer. -/
theorem onbitLocked_eq_ok {b : Bool} {s t : State} (h : onbitLocked b s = .ok t) :
    byteOfBit s.cur < bufBytes s.cfg ∧
    ∃ u, earlyResync (hamming s.cfg (shifted b s.win)) (written b s) = .ok u ∧
      completion (inposResync (hamming s.cfg (shifted b s.win)) u) = .ok t := by
  by_cases hb : byteOfBit s.cur < bufBytes s.cfg
  · rw [onbitLocked_eq hb] at h
    exact ⟨hb, bind_eq_ok.mp h⟩
  · have : writeBit b (shiftIn b s) = .error (.bufferBounds (byteOfBit s.cur)) := by
      unfold writeBit bitWrite
      rw [if_neg (show ¬ byteOfBit (shiftIn b s).cur < bufBytes (shiftIn b s).cfg from hb)]
      rfl
    unfold onbitLocked at h
    simp [this] at h

theorem onbitLocked_sameOutside {b : Bool} {s t : State} (h : onbitLocked b s = .ok t) :
    SameOutside (shiftIn b s) t := by
  obtain ⟨-, u, hu, ht⟩ := onbitLocked_eq_ok h
  have h1 : SameOutside (shiftIn b s) u := by
    unfold earlyResync at hu
    split at hu
    · exact SameOutside.trans (t := written b s) ⟨rfl, rfl, rfl, rfl⟩ (flushHeader_sameOutside hu)
    · rw [← Except.ok.inj hu]; exact ⟨rfl, rfl, rfl, rfl⟩
  have h2 : SameOutside u (inposResync (hamming s.cfg (shifted b s.win)) u) := by
    unfold inposResync
    split <;> exact ⟨rfl, rfl, rfl, rfl⟩
  exact h1.trans (h2.trans (completion_sameOutside ht))

theorem onbitUnlocked_sameOutside {b : Bool} {s t : State} (h : onbitUnlocked b s = .ok t) :
    SameOutside (shiftIn b s) t := by
  unfold onbitUnlocked at h
  dsimp only at h
  split at h
  · rw [acquire_eq_ok h]; exact ⟨rfl, rfl, rfl, rfl⟩
  · rw [← Except.ok.inj h]; exact SameOutside.rfl' _

/-- Every ONBIT that completes shifts the window and leaves the configuration and the input ports alone. -/
theorem execOnbit_sameOutside {b : Bool} {s t : State} (h : execOnbit b s = .next t) :
    SameOutside (shiftIn b s) t := by
  unfold execOnbit at h
  split at h
  · exact onbitUnlocked_sameOutside (answer_eq_next.mp h)
  · exact onbitLocked_sameOutside (answer_eq_next.mp h)

end Sys2Proof.Machine
end

