-- ==== Sys2Proof/Laws/PerInstr.lean ====
section
/-! SUPPORT. The statements made for each instruction: its word lies in its own row of the opcode table, and in no
other. -/

namespace Sys2Proof.Laws.TableRow

/-- The word of `i` matches exactly the row that bears `i`'s mnemonic. -/
def Statement (i : Instr) : Prop :=
  (opcodeTable.filter fun r => rowMatches r (encode i)).map OpcodeRow.mnemonic = [i.mnemonic]

theorem reset : Statement .reset := by unfold Statement; decide

theorem onbit (b : Bool) : Statement (.onbit b) := by unfold Statement; cases b <;> decide

theorem nop : Statement .nop := by unfold Statement; decide

end Sys2Proof.Laws.TableRow
end

