-- ==== Sys2Proof/Laws/Step.lean ====
section
/-! SUPPORT. The laws of one step: what `exec` does for each transaction, and that it neither reads nor writes the
pending inputs. -/

namespace Sys2Proof.Machine

@[simp] theorem decode_encode_onbit (b : Bool) : decode (encode (.onbit b)) = .onbit b := by cases b <;> rfl

@[simp] theorem exec_reset (s : State) : exec .reset s = .next { s with toBlock := Block.reset } := rfl

@[simp] theorem exec_nop (s : State) : exec .nop s = .next s := rfl

/-- The dispatch of ONBIT on the lock state (R140). -/
theorem exec_onbit_unlocked {b : Bool} {s : State} (h : s.lock = .UNLOCKED) :
    exec (.onbit b) s = answer (onbitUnlocked b s) := by
  show execOnbit b s = _; unfold execOnbit; rw [h]

theorem exec_onbit_locked {b : Bool} {s : State} (h : s.lock = .LOCKED) :
    exec (.onbit b) s = answer (onbitLocked b s) := by
  show execOnbit b s = _; unfold execOnbit; rw [h]

/-- Presenting a bit runs ONBIT. -/
theorem transact_bitInput (b : Bool) (q : Quality) (s : State) :
    transact (bitInput b q) s = exec (.onbit b) (startStep (bitInput b q) s) := by
  unfold transact bitInput; rw [decode_encode_onbit]

@[simp] theorem bitInput_sq (b : Bool) (q : Quality) : (bitInput b q).sq = q := rfl

/-- A function applied to the next state of an outcome; a stop stays as it is. -/
def mapNext (f : State → State) : Host.Outcome State Fault Refusal → Host.Outcome State Fault Refusal
  | .next s => .next (f s)
  | .fault e => .fault e
  | .refused r => .refused r

theorem mapNext_eq_next {f : State → State} {o : Host.Outcome State Fault Refusal} {t : State} :
    mapNext f o = .next t ↔ ∃ s, o = .next s ∧ f s = t := by cases o <;> simp [mapNext]

/-- A state with other inputs pending. -/
def withInputs (ins : List Input) (s : State) : State := { s with inputs := ins }

section
variable (ins : List Input)

theorem memWrite_withInputs (j : Nat) (seq : List Byte) (s : State) :
    memWrite j seq (withInputs ins s) = withInputs ins <$> memWrite j seq s := by
  unfold memWrite
  show (if inBuffer s.cfg j seq.length = true then _ else _) = _
  split <;> rfl

theorem map_bind_withInputs {α : Type} (x : Except Fault α) (f : α → Except Fault State) :
    (withInputs ins <$> (x >>= f)) = (x >>= fun a => withInputs ins <$> f a) := by cases x <;> rfl

theorem bind_map_withInputs {α : Type} (x : Except Fault State) (f : State → Except Fault α) :
    ((withInputs ins <$> x) >>= f) = (x >>= fun s => f (withInputs ins s)) := by cases x <;> rfl

theorem fullAnchor_withInputs (s : State) :
    fullAnchor (withInputs ins s) = withInputs ins <$> fullAnchor s := by
  have hw : writeSync (withInputs ins s) = withInputs ins <$> writeSync s := by
    unfold writeSync
    show (if s.cfg.SYNC_SEQ.length = s.cfg.SB then memWrite 1 s.cfg.SYNC_SEQ (withInputs ins s) else _) = _
    split
    · exact memWrite_withInputs ins 1 _ s
    · rfl
  unfold fullAnchor
  rw [hw, bind_map_withInputs, map_bind_withInputs]
  rfl

theorem onbitUnlocked_withInputs (b : Bool) (s : State) :
    onbitUnlocked b (withInputs ins s) = withInputs ins <$> onbitUnlocked b s := by
  unfold onbitUnlocked
  show (if matchStart s.cfg (hamming s.cfg (shifted b s.win)) = true then acquire (withInputs ins (shiftIn b s))
    else Except.ok (withInputs ins (shiftIn b s))) =
    withInputs ins <$> (if matchStart s.cfg (hamming s.cfg (shifted b s.win)) = true then acquire (shiftIn b s)
      else Except.ok (shiftIn b s))
  split
  · unfold acquire
    rw [fullAnchor_withInputs, bind_map_withInputs, map_bind_withInputs]
    rfl
  · rfl

theorem flushHeader_withInputs (s : State) :
    flushHeader (withInputs ins s) = withInputs ins <$> flushHeader s := by
  unfold flushHeader
  show (memWrite 0 [s.cfg.PFX_HDR] (withInputs ins s) >>= _) = _
  rw [memWrite_withInputs, bind_map_withInputs, map_bind_withInputs]
  congr 1; funext u
  rw [map_bind_withInputs]
  show (memRead 0 (hdrLen u.cfg) u >>= fun bytes => fullAnchor (withInputs ins (emit (.EmitHeader bytes) u))) = _
  congr 1; funext bytes
  exact fullAnchor_withInputs ins _

theorem completion_withInputs (s : State) :
    completion (withInputs ins s) = withInputs ins <$> completion s := by
  unfold completion
  show (if s.cur = s.cfg.F then (if countdownPred s.cfg s.cd = 0 then
      Except.ok (withInputs ins (loseLock { s with cd := countdownPred s.cfg s.cd }))
    else emitFrame (withInputs ins { s with cd := countdownPred s.cfg s.cd })) else Except.ok (withInputs ins s)) =
    withInputs ins <$> (if s.cur = s.cfg.F then (if countdownPred s.cfg s.cd = 0 then
      Except.ok (loseLock { s with cd := countdownPred s.cfg s.cd })
    else emitFrame { s with cd := countdownPred s.cfg s.cd }) else Except.ok s)
  split
  · split
    · rfl
    · rw [emitFrame_ok, emitFrame_ok]; rfl
  · rfl

theorem onbitLocked_withInputs (b : Bool) (s : State) :
    onbitLocked b (withInputs ins s) = withInputs ins <$> onbitLocked b s := by
  by_cases hb : byteOfBit s.cur < bufBytes s.cfg
  · rw [onbitLocked_eq hb, onbitLocked_eq (s := withInputs ins s) hb, map_bind_withInputs]
    have he : ∀ hd, earlyResync hd (written b (withInputs ins s)) = withInputs ins <$> earlyResync hd (written b s) := by
      intro hd
      unfold earlyResync
      show (if (inEarly s.cfg (s.cur + 1) && matchRun s.cfg hd) = true then flushHeader (withInputs ins (written b s))
        else _) = withInputs ins <$> (if (inEarly s.cfg (s.cur + 1) && matchRun s.cfg hd) = true then _ else _)
      split
      · exact flushHeader_withInputs ins _
      · rfl
    show (earlyResync (hamming s.cfg (shifted b s.win)) (written b (withInputs ins s)) >>= _) = _
    rw [he, bind_map_withInputs]
    congr 1; funext u
    have hi : ∀ hd, inposResync hd (withInputs ins u) = withInputs ins (inposResync hd u) := by
      intro hd
      unfold inposResync
      show (if (inInpos u.cfg u.cur && matchRun u.cfg hd) = true then _ else _) = _
      split <;> rfl
    show completion (inposResync (hamming s.cfg (shifted b s.win)) (withInputs ins u)) = _
    rw [hi, completion_withInputs]
  · have hx : ∀ u : State, u.cur = s.cur → u.cfg = s.cfg →
        onbitLocked b u = .error (.bufferBounds (byteOfBit s.cur)) := by
      intro u h1 h2
      have : writeBit b (shiftIn b u) = .error (.bufferBounds (byteOfBit s.cur)) := by
        unfold writeBit bitWrite
        rw [if_neg (by simpa only [shiftIn_cur, shiftIn_cfg, h1, h2] using hb), shiftIn_cur, h1]
        rfl
      unfold onbitLocked
      simp [this]
    rw [hx s rfl rfl, hx (withInputs ins s) rfl rfl]; rfl

end

theorem answer_map (f : State → State) (x : Except Fault State) : answer (f <$> x) = mapNext f (answer x) := by
  cases x <;> rfl

/-- `exec` neither reads nor writes the pending inputs. -/
theorem exec_withInputs (ins : List Input) (i : Instr) (s : State) :
    exec i (withInputs ins s) = mapNext (withInputs ins) (exec i s) := by
  cases i with
  | reset => rfl
  | nop => rfl
  | onbit b =>
    cases hl : s.lock with
    | UNLOCKED =>
      rw [exec_onbit_unlocked hl, exec_onbit_unlocked (s := withInputs ins s) hl, onbitUnlocked_withInputs, answer_map]
    | LOCKED =>
      rw [exec_onbit_locked hl, exec_onbit_locked (s := withInputs ins s) hl, onbitLocked_withInputs, answer_map]

/-- One step on an input depends on the block and the configuration alone (R29, R53). -/
theorem transact_congr {s t : State} (x : Input) (hb : s.toBlock = t.toBlock) (hc : s.cfg = t.cfg) :
    transact x t = mapNext (withInputs t.inputs) (transact x s) := by
  unfold transact
  rw [← exec_withInputs]
  congr 1
  exact state_ext (s := startStep x t) (t := withInputs t.inputs (startStep x s)) hb.symm hc.symm rfl rfl rfl

/-- A step that completes leaves the configuration and the pending inputs alone, and the signal-quality input at the
value presented. -/
theorem transact_ports {x : Input} {s t : State} (h : transact x s = .next t) :
    t.cfg = s.cfg ∧ t.inputs = s.inputs ∧ t.sq = x.sq := by
  unfold transact at h
  cases hd : decode x.tx with
  | reset =>
    rw [hd, exec_reset] at h
    rw [← Host.Outcome.next.inj h]; exact ⟨rfl, rfl, rfl⟩
  | nop =>
    rw [hd, exec_nop] at h
    rw [← Host.Outcome.next.inj h]; exact ⟨rfl, rfl, rfl⟩
  | onbit b =>
    rw [hd] at h
    obtain ⟨h1, h2, h3, -⟩ := execOnbit_sameOutside h
    exact ⟨h1, h2, h3⟩

end Sys2Proof.Machine
end

