-- ==== Sys2Proof/Tests/Slice0.lean ====
section
/-! SUPPORT. The model's own tests: decoding of words written out from the spec's table, the checks of a configuration,
the spec's own examples and vectors (spec/95_test_vectors.md), one step each; and for every statement that has
hypotheses, concrete states and operands that meet all of them. -/

namespace Sys2Proof.Tests

open Sys2Proof Sys2Proof.Machine

/-! ### Helpers -/

/-- A state with the configuration `c`, 0x1234 on the signal-quality input, and nothing presented or emitted. -/
def withCfg (c : Cfg) (lock : Lock) (win : Word) (cur cd : Nat) (buf : Memory) : State :=
  { lock := lock, win := win, cur := cur, cd := cd, buf := buf, cfg := c, inputs := [], sq := 0x1234, events := [] }

/-- The same with the spec's test configuration T16. -/
def locked (win : Word) (cur cd : Nat) (buf : Memory) : State := withCfg Config.t16 .LOCKED win cur cd buf

def unlocked (win : Word) (buf : Memory) : State := withCfg Config.t16 .UNLOCKED win 0 0 buf

/-- T16 without the trailer, and with `MAX = 1`. -/
def t16NoSq : Cfg := { Config.t16 with SQ_ENABLE := false }
def t16Max1 : Cfg := { Config.t16 with MAX := 1 }

/-- A small well-formed configuration: a frame of 8 bits after a sync of 2, and pattern bits outside the mask that keep
every window far from the pattern. -/
def tiny : Cfg :=
  { S := 2, SB := 1, PATTERN := 0xF0F3, MASK := 0x3, SYNC_SEQ := [0xC0], H := 4, HB := 1, F := 8, FB := 1
    START_TOL := 0, RUN_TOL := 1, MAX := 2, SQ_ENABLE := false, PFX_HDR := 1, PFX_FLAG := 2, PFX_NOFLAG := 0
    CW := 4, KW := 2 }

/-- The same with the pattern 11 under the mask 11, so that lock is acquired by two 1 bits. -/
def tinyOn : Cfg := { tiny with PATTERN := 0x3 }

/-- `n` input bits, all `b`. -/
def bitsOf (b : Bool) (n : Nat) : List (Bool × Quality) := List.replicate n (b, 0)

/-- The next state of an outcome, if it is one. -/
def nextOf : Host.Outcome State Fault Refusal → Option State
  | .next s => some s
  | .fault _ => none
  | .refused _ => none

def faultOf : Host.Outcome State Fault Refusal → Option Fault
  | .next _ => none
  | .fault f => some f
  | .refused _ => none

/-- The outcome is a next state. -/
def runs (o : Host.Outcome State Fault Refusal) : Bool := (nextOf o).isSome

theorem next_of_runs {o : Host.Outcome State Fault Refusal} (h : runs o = true) : ∃ t, o = .next t := by
  cases o with
  | next s => exact ⟨s, rfl⟩
  | fault f => exact absurd h Bool.false_ne_true
  | refused r => exact absurd h Bool.false_ne_true

/-! ### Decoding: the eight words of R69's table, bit by bit -/

theorem test_decode_100 : decodeTableWord 8 0b100 = some .reset := by decide
theorem test_decode_101 : decodeTableWord 8 0b101 = some .reset := by decide
theorem test_decode_110 : decodeTableWord 8 0b110 = some .reset := by decide
theorem test_decode_111 : decodeTableWord 8 0b111 = some .reset := by decide
theorem test_decode_010 : decodeTableWord 8 0b010 = some (.onbit false) := by decide
theorem test_decode_011 : decodeTableWord 8 0b011 = some (.onbit true) := by decide
theorem test_decode_000 : decodeTableWord 8 0b000 = some .nop := by decide
theorem test_decode_001 : decodeTableWord 8 0b001 = some .nop := by decide
theorem test_decode_wider : decodeNumber 0b1000 = .error (.widerThanTx 8) := by decide

/-- The encoding of program V-UNL-1 (section 3.4): RESET, then the pattern's 16 bits. -/
theorem test_digits_reset_sync : digitsOf (lineOf .reset :: lineSync Config.t16) =
    [4, 3, 3, 2, 2, 2, 3, 3, 3, 2, 2, 3, 2, 3, 3, 2, 3] := by decide

/-! ### The checks of a configuration (R176): one that breaks each, refused under its name -/

theorem test_t16_wf : Config.t16.wf := by decide
/-- Section 1.1: T16 has the recommended consistency of R177 too. -/
theorem test_t16_recommended : Config.t16.recommended = true ∧ tiny.recommended = false := by decide
theorem test_refused_S : faultOf (construct { Config.t16 with S := 1 }) = some (.configRefused .WF_S) := by decide
theorem test_refused_SB : faultOf (construct { Config.t16 with SB := 3 }) = some (.configRefused .WF_SB) := by decide
theorem test_refused_seq :
    faultOf (construct { Config.t16 with SYNC_SEQ := [0xC7] }) = some (.configRefused .WF_SB) := by decide
theorem test_refused_HB : faultOf (construct { Config.t16 with HB := 4 }) = some (.configRefused .WF_HB) := by decide
theorem test_refused_FB : faultOf (construct { Config.t16 with FB := 9 }) = some (.configRefused .WF_FB) := by decide
theorem test_refused_H :
    faultOf (construct { Config.t16 with H := 3, HB := 1 }) = some (.configRefused .WF_NONOVERLAP) := by decide
theorem test_refused_early :
    faultOf (construct { Config.t16 with F := 41, FB := 6 }) = some (.configRefused .WF_EARLY_IN_FRAME) := by decide
theorem test_HB_FB_unmet : ({ Config.t16 with HB := 9 } : Cfg).meets .WF_HB_FB = false := by decide
theorem test_refused_MAX : faultOf (construct { Config.t16 with MAX := 0 }) = some (.configRefused .WF_MAX) := by decide
theorem test_refused_TOL :
    faultOf (construct { Config.t16 with START_TOL := 3 }) = some (.configRefused .WF_TOL) := by decide
theorem test_refused_widths :
    faultOf (construct { Config.t16 with CW := 6 }) = some (.configRefused .WF_WIDTHS) := by decide

/-- Every instruction is well-formed (R63), so no instruction is refused by `Instr.wf`. -/
theorem test_instr_wf : Instr.reset.wf = true ∧ (Instr.onbit true).wf = true ∧ Instr.nop.wf = true := by decide

/-- Derived quantities of T16 (section 1.1). -/
theorem test_derived_t16 : bufBytes Config.t16 = 11 ∧ earlyLo Config.t16 = 39 ∧ earlyHi Config.t16 = 41 ∧
    inposLo Config.t16 = 14 ∧ inposHi Config.t16 = 18 ∧ hdrLen Config.t16 = 4 ∧ payLen Config.t16 = 11 ∧
    payLen t16NoSq = 9 := by decide

/-! ### Operations on the spec's vectors (sections 3.1 to 3.3) -/

/-- V-SH-2 and V-SH-4. -/
theorem test_shift : shifted true 0x8000000000000001 = 0x3 ∧ shifted false 0xC72D = 0x18E5A := by decide

/-- V-HD-2, V-HD-3, V-HD-6, V-HD-9. -/
theorem test_hamming : hamming Config.t16 0xFFFFFFFFFFFFC72D = 0 ∧ hamming Config.t16 0xFFFFFFFFFFFFC72C = 1 ∧
    hamming Config.t16 0xC72A = 3 ∧ hamming Config.t16 0x38D2 = 16 := by decide

/-- Section 3.2, masking variant: a pattern bit outside the mask. -/
theorem test_hamming_outside_mask :
    hamming { Config.t16 with MASK := 0x00FF, PATTERN := 0x012D } 0x123456789ABCDE2D = 1 := by decide

/-- V-BW-4 and V-BW-5. -/
theorem test_bit_write : readByte (putPayloadBit [] 13 true) 2 = 0x04 ∧
    readByte (putPayloadBit [(1, 0xFF), (2, 0xFF)] 13 false) 2 = 0xFB := by decide

/-- Section 3.3: `BitWrite(80, b)` raises `BufferBounds(11)` under T16. -/
theorem test_bit_write_outside : faultOf (answer (bitWrite 80 true (locked 0 0 1 []))) = some (.bufferBounds 11) := by
  decide

/-! ### One step each -/

/-- R141's example: from `lock = LOCKED, cur = 37, cd = 2`, the reset state and no event. -/
theorem test_reset : nextOf (transact { tx := 0b111, sq := 0 } (locked 0xABC 37 2 [(3, 0xA5)])) =
    some { toBlock := Block.reset, cfg := Config.t16, inputs := [], sq := 0, events := [] } := by decide

/-- R142's example: any state, with `tx = 0b001`, is unchanged. -/
theorem test_nop : nextOf (transact { tx := 0b001, sq := 0x1234 } (locked 0xABC 37 2 [(3, 0xA5)])) =
    some (locked 0xABC 37 2 [(3, 0xA5)]) := by decide

/-- V-UNL-2, last step: the canonical bytes are written, not the received ones. -/
theorem test_onbit_acquires : nextOf (exec (.onbit false) (unlocked 0x6396 [])) =
    some { locked 0xC72C 16 4 [(1, 0xC7), (2, 0x2D)] with events := [.SetDecode true] } := by decide

/-- Program P1, last step (R110's example): the flagged payload frame with its trailer, high byte first. -/
theorem test_onbit_emits : nextOf (exec (.onbit false) (locked (0xC72D <<< 47) 63 4 [(1, 0xC7), (2, 0x2D)])) =
    some { locked (0xC72D <<< 48) 0 3 [] with
      events := [.EmitPayload [0x02, 0xC7, 0x2D, 0, 0, 0, 0, 0, 0, 0x12, 0x34]] } := by
  decide

/-! ### Witnesses: states and operands that meet the hypotheses of the statements, in the statements' order -/

theorem witness_DecodePriority : (0b100 : Tx).getLsbD 2 = true ∧ (0b111 : Tx).getLsbD 2 = true ∧
    ((0b011 : Tx).getLsbD 2 = false ∧ (0b011 : Tx).getLsbD 1 = true) ∧
    ((0b000 : Tx).getLsbD 2 = false ∧ (0b000 : Tx).getLsbD 1 = false) ∧
    ((0b001 : Tx).getLsbD 2 = false ∧ (0b001 : Tx).getLsbD 1 = false) := by decide

theorem witness_WordsDecodeAsTabled : 0b111 < 8 ∧ 0b111 ∈ [0b001, 0b101, 0b110, 0b111] := by decide

theorem witness_DecodeEncodeAgree : (Instr.onbit true).wf = true ∧
    { mnemonic := "ONBIT", mask := 0b110, pattern := 0b010 } ∈ opcodeTable := by decide

theorem witness_PseudoInstructionsExpand : 15 < 16 ∧ 64 ≤ 64 := by decide

theorem witness_StepRunsDecoded :
    ({ unlocked 0 [] with inputs := [{ tx := 0b011, sq := 7 }] } : State).inputs = { tx := 0b011, sq := 7 } :: [] ∧
    (unlocked 0 []).inputs = [] ∧ decodeTableWord 8 0b011 = some (.onbit true) := by decide

theorem witness_ResetClearsBlock : (locked 5 20 3 [(1, 1)]).cfg = (unlocked 9 []).cfg ∧
    runs (exec .reset (locked 5 20 3 [(1, 1)])) = true ∧ runs (exec .reset (unlocked 9 [])) = true := by decide

theorem witness_NopsMakeNoDifference :
    runs (feed [{ tx := 0b000, sq := 1 }, bitInput true 2, { tx := 0b001, sq := 3 }] (unlocked 0 [])) = true := by decide

/-- An ONBIT that completes in each lock state. -/
theorem witness_EveryOnbitShifts : runs (exec (.onbit true) (unlocked 0x6396 [])) = true ∧
    runs (exec (.onbit true) (locked 0x6396 20 2 [])) = true := by decide

theorem witness_WindowHoldsLastBits :
    runs (feed (bitsIn [(true, 0), (false, 1)]) (unlocked 0x8000000000000001 [])) = true := by decide

theorem witness_StartThresholdIsInclusive : ({ Config.t16 with START_TOL := 0 } : Cfg).START_TOL = 0 ∧
    popcount 0xFFFF + popcount ((0xC72D : Word) &&& ~~~ 0xFFFF) ≤ ({ Config.t16 with START_TOL := 16 } : Cfg).START_TOL := by
  decide

theorem witness_StartMatchIsRunMatch : Config.t16.wf ∧ matchStart Config.t16 1 = true := by decide

/-- Distance 2 with `START_TOL = 1`, just past the boundary (V-UNL-3). -/
theorem witness_NoFalseLockUnderMask : (unlocked 0x6316 []).lock = .UNLOCKED ∧
    Config.t16.START_TOL < popcount (((shifted false 0x6316 &&& Config.t16.MASK) ^^^ Config.t16.PATTERN) &&&
      (BitVec.allOnes 64 >>> (64 - Config.t16.S))) := by decide

theorem witness_NoFalseLockFullMask : (unlocked 0x6316 []).lock = .UNLOCKED ∧
    (∀ k, k < Config.t16.S → Config.t16.MASK.getLsbD k = true) ∧ Config.t16.S ≤ 64 ∧
    Config.t16.START_TOL < popcount ((shifted false 0x6316 ^^^ Config.t16.PATTERN) &&&
      (BitVec.allOnes 64 >>> (64 - Config.t16.S))) := by decide

/-- The last bit inside the buffer and the first outside. -/
theorem witness_BitWriteWritesOneBit : 1 + 79 / 8 < bufBytes Config.t16 ∧ bufBytes Config.t16 ≤ 1 + 80 / 8 := by decide

/-- All the bytes of T16's buffer but byte 0, written in the reverse order. -/
theorem witness_BitWritesReadBackAsBytes : 10 ≤ Config.t16.FB + 2 ∧ (List.range (8 * 10)).reverse.Perm (List.range (8 * 10)) :=
  ⟨by decide, List.reverse_perm _⟩

theorem witness_BufferAccessesAreBounded : 0 + 11 ≤ bufBytes Config.t16 ∧ (0 < 12 ∧ bufBytes Config.t16 < 0 + 12) ∧
    9 + [(1 : Byte), 2].length ≤ bufBytes Config.t16 ∧
    (0 < [(1 : Byte), 2].length ∧ bufBytes Config.t16 < 10 + [(1 : Byte), 2].length) := by decide

theorem witness_SyncWriteAndClear : (locked 0 0 1 []).cfg.wf := by decide

/-- Distance exactly `START_TOL`, and one past it. -/
theorem witness_UnlockedOnbitAcquiresOrScans : Config.t16.wf ∧ (unlocked 0x6396 []).lock = .UNLOCKED ∧
    hamming Config.t16 (shifted false 0x6396) = Config.t16.START_TOL ∧
    hamming Config.t16 (shifted false 0x6316) = Config.t16.START_TOL + 1 := by decide

theorem witness_CanonicalPatternAcquires : Config.t16.wf ∧ (unlocked 0 []).lock = .UNLOCKED ∧
    Config.t16.MASK = BitVec.allOnes 64 >>> (64 - Config.t16.S) ∧ Config.t16.PATTERN &&& ~~~ Config.t16.MASK = 0 ∧
    allWindows (fun w => decide (Config.t16.START_TOL < hamming Config.t16 w)) 0
      ((patternBits Config.t16).take (Config.t16.S - 3)) = true := by decide

theorem witness_CanonicalPatternEndsLocked : Config.t16.wf ∧ (unlocked 0 []).lock = .UNLOCKED ∧
    Config.t16.MASK = BitVec.allOnes 64 >>> (64 - Config.t16.S) ∧ Config.t16.PATTERN &&& ~~~ Config.t16.MASK = 0 ∧
    2 * Config.t16.S ≤ Config.t16.F := by decide

/-- Both sides of the statement occur: T16 does not lock on its first bit, a pattern of one 1 bit does. -/
theorem witness_FirstBitCanAcquire : Config.t16.wf ∧
    ¬ popcount ((zext64 true &&& Config.t16.MASK) ^^^ Config.t16.PATTERN) ≤ Config.t16.START_TOL ∧
    ({ tiny with PATTERN := 0x1 } : Cfg).wf ∧ popcount ((zext64 true &&& 0x3) ^^^ 0x1) ≤ tiny.START_TOL := by decide

theorem witness_BitAfterAcquisitionIsWritten : Config.t16.wf ∧ (unlocked 0x6396 []).lock = .UNLOCKED ∧
    hamming Config.t16 (shifted true 0x6396) ≤ Config.t16.START_TOL := by decide

/-- No match at the last cursor before the frame's end and inside a window; and a match at a cursor just outside each
window. -/
theorem witness_LockedOnbitWritesItsBit : (locked 0 62 1 []).lock = .LOCKED ∧ 62 + 1 < Config.t16.F ∧
    ¬ hamming Config.t16 (shifted false 0) ≤ Config.t16.RUN_TOL ∧ inEarly Config.t16 39 = true ∧
    hamming Config.t16 (shifted true 0x6396) ≤ Config.t16.RUN_TOL ∧
    (∀ k ∈ [13, 19, 38, 42], inEarly Config.t16 k = false ∧ inInpos Config.t16 k = false) := by decide

/-- Both edges of the early window, with a distance of exactly `RUN_TOL` (V-HD-6). -/
theorem witness_EarlyResyncFlushesHeader : Config.t16.wf ∧ (locked 0x6395 38 2 []).lock = .LOCKED ∧
    (∀ cur ∈ [38, 39, 40], Config.t16.H + Config.t16.S - 1 ≤ cur + 1 ∧ cur + 1 ≤ Config.t16.H + Config.t16.S + 1) ∧
    hamming Config.t16 (shifted false 0x6395) = Config.t16.RUN_TOL := by decide

theorem witness_EarlyThenInposChangesNothing : Config.t16.wf ∧ inEarly Config.t16 41 = true ∧
    matchRun Config.t16 3 = true ∧ runs (answer (earlyResync 3 (locked 0xC72A 41 1 []))) = true := by decide

theorem witness_CursorWindowsAreDisjoint : Config.t16.wf ∧ inEarly Config.t16 39 = true ∧ inEarly Config.t16 41 = true := by
  decide

/-- Both edges of the in-position window. -/
theorem witness_InPositionResyncMovesCursorOnly : Config.t16.wf ∧ (locked 0x6395 13 2 []).lock = .LOCKED ∧
    (∀ cur ∈ [13, 17], Config.t16.S - 2 ≤ cur + 1 ∧ cur + 1 ≤ Config.t16.S + 2) ∧
    hamming Config.t16 (shifted false 0x6395) ≤ Config.t16.RUN_TOL := by decide

/-- The last countdown that still emits, the flagged one, and a configuration with and without the trailer. -/
theorem witness_CompletionEmitsPayload : Config.t16.wf ∧ t16NoSq.wf ∧ (locked 0 63 2 []).lock = .LOCKED ∧
    63 + 1 = Config.t16.F ∧ 2 ≤ (locked 0 63 2 []).cd ∧ 2 ≤ (withCfg t16NoSq .LOCKED 0 63 4 []).cd ∧
    (withCfg t16NoSq .LOCKED 0 63 4 []).cd - 1 = t16NoSq.MAX - 1 ∧ Config.t16.SQ_ENABLE = true := by decide

theorem witness_CompletionLosesLock : Config.t16.wf ∧ (locked 0 63 1 []).lock = .LOCKED ∧ 63 + 1 = Config.t16.F ∧
    (locked 0 63 1 []).cd = 1 := by decide

/-- Both cases: the countdown runs out, and it does not. -/
theorem witness_DecrementThenCompare : Config.t16.wf ∧ (locked 0 63 1 []).lock = .LOCKED ∧ 63 + 1 = Config.t16.F ∧
    1 ≤ (locked 0 63 1 []).cd ∧ (locked 0 63 4 []).lock = .LOCKED ∧ 1 ≤ (locked 0 63 4 []).cd := by decide

/-- A frame begun cold, one bit before the low edge of the in-position window. -/
theorem witness_SkippedBitsReadZero : Invariants (locked 0x6395 13 3 []) ∧ (locked 0x6395 13 3 []).lock = .LOCKED ∧
    Config.t16.S - 2 ≤ 13 + 1 ∧ 13 + 1 < Config.t16.S ∧ (∀ i, 13 ≤ i → payloadBit [] i = false) ∧
    readByte [] 0 = 0x00 ∧ hamming Config.t16 (shifted false 0x6395) ≤ Config.t16.RUN_TOL ∧
    runs (transact (bitInput false 0) (locked 0x6395 13 3 [])) = true :=
  ⟨by decide, by decide, by decide, by decide, fun _ _ => BitVec.getLsbD_zero, by decide, by decide, by decide⟩

theorem witness_MaxOneNeverEmitsPayload : Invariants (withCfg t16Max1 .LOCKED 0 63 1 []) ∧ t16Max1.MAX = 1 ∧
    runs (transact (bitInput false 0) (withCfg t16Max1 .LOCKED 0 63 1 [])) = true := by decide

/-- A pattern that every shift of a stream of ones matches. -/
theorem witness_RepeatedResyncEmitsNothing : tinyOn.wf ∧ (withCfg tinyOn .LOCKED 0x3 2 1 []).cur = tinyOn.S ∧
    allWindows (fun w => decide (hamming tinyOn w ≤ tinyOn.RUN_TOL)) 0x3 ((bitsOf true 5).map Prod.fst) = true ∧
    bitsOf true 5 ≠ [] := by decide

/-- The last two bits of the pattern arrive around the loss. -/
theorem witness_ReacquiresRightAfterLoss : Config.t16.wf ∧ (locked 0x31CB 63 1 []).lock = .LOCKED ∧ 63 + 1 = Config.t16.F ∧
    hamming Config.t16 (shifted true (shifted false 0x31CB)) ≤ Config.t16.START_TOL := by decide

/-- The last four bits of a frame of zeros, with the countdown at 1 and above. -/
theorem witness_FramePeriodEndsInOneEvent : Invariants (locked 0 60 1 []) ∧ Invariants (locked 0 60 2 []) ∧
    (locked 0 60 1 []).lock = .LOCKED ∧ (bitsOf false 4).length = Config.t16.F - 60 ∧
    quiet Config.t16 0 ((bitsOf false 4).map Prod.fst) = true := by decide

/-- Fourteen quiet bits from an anchor, under a configuration with `MAX = 2`; `n = 1` is in range. -/
theorem witness_CountdownExhaustion : Invariants (withCfg tiny .LOCKED 0x3 2 2 []) ∧
    (withCfg tiny .LOCKED 0x3 2 2 []).lock = .LOCKED ∧ (withCfg tiny .LOCKED 0x3 2 2 []).cur = tiny.S ∧
    (withCfg tiny .LOCKED 0x3 2 2 []).cd = tiny.MAX ∧
    (bitsOf false 14).length = (tiny.F - tiny.S) + (tiny.MAX - 1) * tiny.F ∧
    quiet tiny 0x3 ((bitsOf false 14).map Prod.fst) = true ∧ 1 < tiny.MAX := by decide

theorem witness_StepKeepsInvariants :
    Invariants ({ locked 0x6395 63 1 [(1, 0xC7)] with inputs := [bitInput true 0] } : State) ∧
    runs (step { locked 0x6395 63 1 [(1, 0xC7)] with inputs := [bitInput true 0] }) = true := by decide

theorem witness_ResetMeetsInvariants : Config.t16.wf := by decide

theorem witness_EveryTransactionCompletes : Invariants (locked 0x6395 40 2 []) ∧
    nextOf (construct Config.t16) = some (State.resetWith Config.t16) := by decide

theorem witness_OnbitCompletes : (locked 0 63 1 []).cfg.wf ∧ (locked 0 63 1 []).cur < Config.t16.F := by decide

/-- The list of constraints cut before the one that fails, with all before it met. -/
theorem witness_ConstructChecksInOrder :
    Constraint.all = [.WF_S, .WF_SB, .WF_HB, .WF_FB] ++ .WF_NONOVERLAP ::
      [.WF_EARLY_IN_FRAME, .WF_HB_FB, .WF_MAX, .WF_TOL, .WF_WIDTHS] ∧
    (∀ k ∈ [Constraint.WF_S, .WF_SB, .WF_HB, .WF_FB], ({ Config.t16 with H := 3, HB := 1 } : Cfg).meets k = true) ∧
    ({ Config.t16 with H := 3, HB := 1 } : Cfg).meets .WF_NONOVERLAP = false := by decide

theorem witness_ConfigurationIsFixed : runs (feed [bitInput true 0, { tx := 0b100, sq := 0 }] (locked 0 20 2 [])) = true := by
  decide

/-- An acquisition, a lock loss and a reset, each of which changes the mode. -/
theorem witness_ModeChangesOnlyAsListed :
    (nextOf (transact (bitInput true 0) (unlocked 0x6396 []))).map (·.lock) = some .LOCKED ∧
    (nextOf (transact (bitInput true 0) (locked 0 63 1 []))).map (·.lock) = some .UNLOCKED ∧
    (nextOf (transact { tx := 0b100, sq := 0 } (locked 0 20 2 []))).map (·.lock) = some .UNLOCKED := by decide

/-- A step that writes both counters, from a state that meets the invariants. -/
theorem witness_CountersWrittenOnlyAsListed : Invariants (locked 0x6396 38 2 []) ∧
    (nextOf (transact (bitInput true 0) (locked 0x6396 38 2 []))).map (fun t => (t.cur, t.cd)) = some (16, 4) := by decide

/-- A step that completes from a state that meets the invariants, for each of the five lists. -/
theorem witness_EventListIsOneOfFive :
    (Invariants (unlocked 0x6396 []) ∧
      (nextOf (transact (bitInput true 0) (unlocked 0x6396 []))).map (·.events) = some [.SetDecode true]) ∧
    (Invariants (locked 0x6396 38 2 []) ∧
      (nextOf (transact (bitInput true 0) (locked 0x6396 38 2 []))).map (·.events) = some [.EmitHeader [1, 0, 0, 0]]) ∧
    (Invariants (locked 0 63 2 []) ∧
      (nextOf (transact (bitInput false 0xABCD) (locked 0 63 2 []))).map (·.events) =
        some [.EmitPayload [0, 0, 0, 0, 0, 0, 0, 0, 0, 0xAB, 0xCD]]) ∧
    (Invariants (locked 0 63 1 []) ∧
      (nextOf (transact (bitInput false 0) (locked 0 63 1 []))).map (·.events) = some [.SetDecode false, .LockLost]) ∧
    (Invariants (locked 0 20 1 []) ∧ (nextOf (transact (bitInput false 0) (locked 0 20 1 []))).map (·.events) = some []) := by
  decide

/-- A run of the small configuration that acquires, flushes a header and emits a payload frame. -/
theorem witness_EmittedFramesCarryTheirCode : runs (construct tinyOn) = true ∧
    (observe (bitsIn (bitsOf true 2 ++ bitsOf false 4 ++ bitsOf true 1 ++ bitsOf false 7)) (State.resetWith tinyOn)).flatten.map
      eventTag = [0, 1, 2] := by decide

theorem witness_QualityReadOnlyByEmission : runs (exec (.onbit true) (locked 0 63 2 [])) = true ∧
    t16NoSq.SQ_ENABLE = false ∧ runs (exec (.onbit true) (withCfg t16NoSq .LOCKED 0 63 2 [])) = true ∧
    (nextOf (exec (.onbit true) (locked 0 63 1 []))).map (·.events) = some [.SetDecode false, .LockLost] := by decide

theorem witness_ResetIsFresh : runs (exec .reset (locked 0xABC 37 2 [(3, 0xA5)])) = true := by decide

/-- Two UNLOCKED states with equal windows and different buffers, and a LOCKED one beside itself with other ports. -/
theorem witness_EqualWindowsAreIndistinguishable : Config.t16.wf ∧ (unlocked 7 []).win = (unlocked 7 [(5, 0xA5)]).win ∧
    Config.t16.F % 8 = 0 ∧ 8 * Config.t16.HB ≤ Config.t16.H + Config.t16.S - 1 ∧
    ({ locked 7 20 2 [] with sq := 9 } : State).toBlock = (locked 7 20 2 []).toBlock := by decide

end Sys2Proof.Tests
end

section
/-! SUPPORT. Buffer accesses (R14): what each answers inside `[0, BUFB)`, byte by byte, the fault each raises outside,
and the statement about them. -/

namespace Sys2Proof.Machine

/-! ### The range check -/

theorem inBuffer_of_le {c : Cfg} {j n : Nat} (h : j + n ≤ bufBytes c) : inBuffer c j n = true :=
  decide_eq_true (.inr h)

theorem inBuffer_eq_false {c : Cfg} {j n : Nat} (hn : 0 < n) (h : bufBytes c < j + n) : inBuffer c j n = false :=
  decide_eq_false (by omega)

/-- The recorded index is one of the access, and outside the buffer. -/
theorem firstOutside_spec {c : Cfg} {j n : Nat} (hn : 0 < n) (h : bufBytes c < j + n) :
    bufBytes c ≤ firstOutside c j ∧ j ≤ firstOutside c j ∧ firstOutside c j < j + n :=
  ⟨le_max_right _ _, le_max_left _ _, max_lt (by omega) h⟩

/-! ### Accesses outside the buffer -/

theorem memRead_error {j n : Nat} {s : State} (h : inBuffer s.cfg j n = false) :
    memRead j n s = .error (.bufferBounds (firstOutside s.cfg j)) := by simp [memRead, h]

theorem memWrite_error {j : Nat} {seq : List Byte} {s : State} (h : inBuffer s.cfg j seq.length = false) :
    memWrite j seq s = .error (.bufferBounds (firstOutside s.cfg j)) := by simp [memWrite, h]

/-! ### Bytes of an access -/

theorem getElem?_readBytes {n k : Nat} (m : Memory) (j : Nat) (h : k < n) :
    (readBytes m j n)[k]? = some (readByte m (j + k)) := by
  rw [List.getElem?_eq_getElem (by simpa using h), getElem_readBytes]

theorem readByte_writeBytes_inside {seq : List Byte} {k : Nat} (m : Memory) (j : Nat) (h : k < seq.length) :
    some (readByte (writeBytes m j seq) (j + k)) = seq[k]? := by
  rw [readByte_writeBytes, if_pos (by omega), Nat.add_sub_cancel_left, List.getD_eq_getElem _ _ h,
    List.getElem?_eq_getElem h]

theorem readByte_writeBytes_outside {seq : List Byte} {j a : Nat} (m : Memory) (h : a < j ∨ j + seq.length ≤ a) :
    readByte (writeBytes m j seq) a = readByte m a := by
  rw [readByte_writeBytes, if_neg (by omega)]

/-- Settles O21: the range check decides each access; inside, the byte laws of `readBytes` and `writeBytes` say what it
does, and outside, `firstOutside` is the index of the fault. -/
theorem bufferAccessesAreBounded : Obligations.BufferAccessesAreBounded := by
  refine ⟨fun j n s h => ?readInside, fun j n s hn h => ?readOutside,
    fun j seq s h => ?writeInside, fun j seq s hn h => ?writeOutside⟩
  case readInside =>
    exact ⟨_, memRead_ok (inBuffer_of_le h), length_readBytes .., fun _ hk => getElem?_readBytes _ _ hk⟩
  case readOutside =>
    obtain ⟨hout, hlo, hhi⟩ := firstOutside_spec hn h
    exact ⟨_, hout, hlo, hhi, memRead_error (inBuffer_eq_false hn h)⟩
  case writeInside =>
    exact ⟨_, memWrite_ok (inBuffer_of_le h), fun _ hk => readByte_writeBytes_inside _ _ hk,
      fun _ ha => readByte_writeBytes_outside _ ha, rfl⟩
  case writeOutside =>
    obtain ⟨hout, hlo, hhi⟩ := firstOutside_spec hn h
    exact ⟨_, hout, hlo, hhi, memWrite_error (inBuffer_eq_false hn h)⟩

end Sys2Proof.Machine
end

section
/-! SUPPORT. The effects of a step: under a well-formed configuration and with a cursor inside the frame, the one of
seven things an ONBIT does, and the one of three things a transaction does. -/

namespace Sys2Proof.Machine

/-- The state after acquisition: the window shifted, the full anchor, LOCKED, decode active (R100). -/
def acquired (b : Bool) (s : State) : State :=
  emit (.SetDecode true) { anchor { shiftIn b s with buf := writeBytes s.buf 1 s.cfg.SYNC_SEQ } with lock := .LOCKED }

/-- `OnbitEffect b s t`: ONBIT with bit `b` takes `s` to `t`, one constructor for each thing it can do, with the
condition that thing happens under (R100 to R126). -/
inductive OnbitEffect (b : Bool) (s : State) : State → Prop
  | scans (hl : s.lock = .UNLOCKED) (hm : matchStart s.cfg (hamming s.cfg (shifted b s.win)) = false) :
      OnbitEffect b s (shiftIn b s)
  | acquires (hl : s.lock = .UNLOCKED) (hm : matchStart s.cfg (hamming s.cfg (shifted b s.win)) = true) :
      OnbitEffect b s (acquired b s)
  | flushes (hl : s.lock = .LOCKED) (he : inEarly s.cfg (s.cur + 1) = true)
      (hm : matchRun s.cfg (hamming s.cfg (shifted b s.win)) = true) : OnbitEffect b s (flushed (written b s))
  | resyncs (hl : s.lock = .LOCKED) (hi : inInpos s.cfg (s.cur + 1) = true)
      (hm : matchRun s.cfg (hamming s.cfg (shifted b s.win)) = true) : OnbitEffect b s (anchor (written b s))
  | loses (hl : s.lock = .LOCKED) (hF : s.cur + 1 = s.cfg.F) (hd : countdownPred s.cfg s.cd = 0) :
      OnbitEffect b s (loseLock (counted b s))
  | emits (hl : s.lock = .LOCKED) (hF : s.cur + 1 = s.cfg.F) (hd : countdownPred s.cfg s.cd ≠ 0) :
      OnbitEffect b s (emitted (counted b s))
  | advances (hl : s.lock = .LOCKED) (hF : s.cur + 1 < s.cfg.F)
      (hn : matchRun s.cfg (hamming s.cfg (shifted b s.win)) = true →
        inEarly s.cfg (s.cur + 1) = false ∧ inInpos s.cfg (s.cur + 1) = false) : OnbitEffect b s (written b s)

section
variable {b : Bool} {s : State} (hw : s.cfg.wf) (hc : s.lock = .LOCKED → s.cur < s.cfg.F)
include hw hc

/-- ONBIT completes, with one of the seven effects. -/
theorem exec_onbit_effect (b : Bool) : ∃ t, exec (.onbit b) s = .next t ∧ OnbitEffect b s t := by
  cases hl : s.lock with
  | UNLOCKED =>
    rw [exec_onbit_unlocked hl]
    rcases onbitUnlocked_cases (b := b) hw with ⟨hm, he⟩ | ⟨hm, he⟩ <;> rw [he]
    · exact ⟨_, rfl, .acquires hl hm⟩
    · exact ⟨_, rfl, .scans hl hm⟩
  | LOCKED =>
    rw [exec_onbit_locked hl]
    rcases onbitLocked_cases (b := b) hw (hc hl) with
      ⟨h1, h2, he⟩ | ⟨h1, h2, he⟩ | ⟨h1, h2, he⟩ | ⟨h1, h2, he⟩ | ⟨h1, h2, he⟩ <;> rw [he]
    · exact ⟨_, rfl, .flushes hl h1 h2⟩
    · exact ⟨_, rfl, .resyncs hl h1 h2⟩
    · exact ⟨_, rfl, .loses hl h1 h2⟩
    · exact ⟨_, rfl, .emits hl h1 h2⟩
    · exact ⟨_, rfl, .advances hl h1 h2⟩

/-- An effect whose condition holds is what ONBIT does. -/
theorem exec_onbit_of_effect {t : State} (h : OnbitEffect b s t) : exec (.onbit b) s = .next t := by
  cases h with
  | scans hl hm =>
    rcases onbitUnlocked_cases (b := b) hw with ⟨hm', -⟩ | ⟨-, he⟩
    · simp [hm] at hm'
    · rw [exec_onbit_unlocked hl, he]; rfl
  | acquires hl hm =>
    rcases onbitUnlocked_cases (b := b) hw with ⟨-, he⟩ | ⟨hm', -⟩
    · rw [exec_onbit_unlocked hl, he]; rfl
    · simp [hm] at hm'
  | flushes hl he hm => rw [exec_onbit_locked hl, onbitLocked_early hw (hc hl) he hm]; rfl
  | resyncs hl hi hm => rw [exec_onbit_locked hl, onbitLocked_inpos hw (hc hl) hi hm]; rfl
  | loses hl hF hd => rw [exec_onbit_locked hl, onbitLocked_loses hw hF hd]; rfl
  | emits hl hF hd => rw [exec_onbit_locked hl, onbitLocked_emits hw hF hd]; rfl
  | advances hl hF hn => rw [exec_onbit_locked hl, onbitLocked_plain hw (hc hl) hn (by omega)]; rfl

/-- The effects are exactly what ONBIT does. -/
theorem exec_onbit_eq_next_iff {t : State} : exec (.onbit b) s = .next t ↔ OnbitEffect b s t := by
  refine ⟨fun h => ?_, exec_onbit_of_effect hw hc⟩
  obtain ⟨u, hu, he⟩ := exec_onbit_effect hw hc b
  rwa [Host.Outcome.next.inj (h.symm.trans hu)]

/-- Everything a transaction can do. -/
theorem transact_cases {x : Input} {t : State} (h : transact x s = .next t) :
    (decode x.tx = .reset ∧ t = { startStep x s with toBlock := Block.reset }) ∨
    (decode x.tx = .nop ∧ t = startStep x s) ∨
    ∃ b, decode x.tx = .onbit b ∧ OnbitEffect b (startStep x s) t := by
  unfold transact at h
  cases hd : decode x.tx with
  | reset =>
    rw [hd, exec_reset] at h
    exact .inl ⟨rfl, (Host.Outcome.next.inj h).symm⟩
  | nop =>
    rw [hd, exec_nop] at h
    exact .inr (.inl ⟨rfl, (Host.Outcome.next.inj h).symm⟩)
  | onbit b =>
    rw [hd] at h
    exact .inr (.inr ⟨b, rfl, (exec_onbit_eq_next_iff (s := startStep x s) hw hc).mp h⟩)

end

end Sys2Proof.Machine
end

section
/-! SUPPORT. The invariants of R30: that the reset state meets them and every step keeps them. -/

namespace Sys2Proof.Machine

/-! ### The buffer's part -/

/-- The buffer's part of the invariants: canonical form, and no address outside `[0, BUFB)`. -/
def BufferFits (c : Cfg) (m : Memory) : Prop := m.wf = true ∧ m.within (bufBytes c) = true

theorem bufferFits_nil (c : Cfg) : BufferFits c [] := ⟨rfl, rfl⟩

theorem bufferFits_writePrefix {c : Cfg} {m : Memory} (v : Byte) (h : BufferFits c m) :
    BufferFits c (writeByte m 0 v) :=
  ⟨wf_writeByte 0 v h.1, within_writeByte v (by rw [bufBytes_eq]; omega) h.2⟩

theorem bufferFits_writeSync {c : Cfg} {m : Memory} (hw : c.wf) (h : BufferFits c m) :
    BufferFits c (writeBytes m 1 c.SYNC_SEQ) := by
  have hb := Cfg.wf_bounds hw
  exact ⟨wf_writeBytes _ 1 h.1, within_writeBytes _ (by rw [bufBytes_eq]; omega) h.2⟩

theorem bufferFits_putPayloadBit {c : Cfg} {m : Memory} {i : Nat} (b : Bool) (hw : c.wf) (hi : i < c.F)
    (h : BufferFits c m) : BufferFits c (putPayloadBit m i b) :=
  ⟨wf_putPayloadBit i b h.1, within_putPayloadBit b (byteOfBit_lt hw hi) h.2⟩

/-! ### The reset state -/

/-- A state in reset meets the invariants whatever its ports hold. -/
theorem invariants_of_reset {s : State} (hw : s.cfg.wf) (hs : s.toBlock = Block.reset) : Invariants s := by
  unfold Invariants
  rw [hs]
  exact ⟨hw, Nat.zero_le _, Nat.zero_le _, nofun, rfl, rfl⟩

/-- Settles O43: `State.reset` is `resetWith` of T16, which is well-formed. -/
theorem resetMeetsInvariants : Obligations.ResetMeetsInvariants :=
  ⟨fun _ hw => invariants_of_reset hw rfl, invariants_of_reset (s := State.reset) (by decide) rfl⟩

/-- Settles O8: each field is read off; an empty buffer reads 0x00 at every address. -/
theorem resetStateIsClear : Obligations.ResetStateIsClear :=
  ⟨fun c => ⟨resetWith_lock c, resetWith_win c, resetWith_cur c, resetWith_cd c, fun j _ => readByte_nil j,
    resetWith_cfg c⟩, rfl⟩

/-! ### Every step keeps the invariants -/

/-- Under the invariants a LOCKED cursor lies inside the frame (R30). -/
theorem Invariants.cur_lt {s : State} (hs : Invariants s) (hl : s.lock = .LOCKED) : s.cur < s.cfg.F := by
  obtain ⟨-, -, -, hlocked, -⟩ := hs
  exact (hlocked hl).2

/-- Under the invariants the countdown of a LOCKED state goes down by exactly one (R130). -/
theorem Invariants.countdownPred_add_one {s : State} (hs : Invariants s) (hl : s.lock = .LOCKED) :
    countdownPred s.cfg s.cd + 1 = s.cd := by
  obtain ⟨-, -, -, hlocked, -⟩ := hs
  have hcd := (hlocked hl).1
  unfold countdownPred
  rw [if_neg (by omega)]; omega

/-- A state with the counters of an anchor meets the invariants if its buffer fits. -/
theorem invariants_of_anchored {s : State} (hw : s.cfg.wf) (hcur : s.cur = s.cfg.S) (hcd : s.cd = s.cfg.MAX)
    (hm : BufferFits s.cfg s.buf) : Invariants s := by
  have hb := Cfg.wf_bounds hw
  exact ⟨hw, by omega, by omega, fun _ => by omega, hm.1, hm.2⟩

/-- ONBIT keeps the invariants, effect by effect. -/
theorem invariants_of_onbitEffect {b : Bool} {s t : State} (hs : Invariants s) (h : OnbitEffect b s t) :
    Invariants t := by
  have hpred := hs.countdownPred_add_one
  obtain ⟨hw, hcur, hcd, hlocked, hwf, hin⟩ := hs
  have hm : BufferFits s.cfg s.buf := ⟨hwf, hin⟩
  have hwritten (hl : s.lock = .LOCKED) : BufferFits s.cfg (putPayloadBit s.buf s.cur b) :=
    bufferFits_putPayloadBit b hw (hlocked hl).2 hm
  cases h with
  | scans _ _ => exact ⟨hw, hcur, hcd, hlocked, hwf, hin⟩
  | acquires _ _ => exact invariants_of_anchored hw rfl rfl (bufferFits_writeSync hw hm)
  | flushes hl _ _ =>
    exact invariants_of_anchored hw rfl rfl (bufferFits_writeSync hw (bufferFits_writePrefix _ (hwritten hl)))
  | resyncs hl _ _ => exact invariants_of_anchored hw rfl rfl (hwritten hl)
  | loses hl hF hd => exact ⟨hw, hF.le, hd.trans_le (Nat.zero_le _), nofun, hwritten hl⟩
  | emits hl _ hd =>
    have hb := Cfg.wf_bounds hw
    have hdown := hpred hl
    exact ⟨hw, Nat.zero_le _, show countdownPred s.cfg s.cd ≤ s.cfg.MAX by omega,
      fun _ => ⟨Nat.pos_of_ne_zero hd, show 0 < s.cfg.F by omega⟩, bufferFits_nil s.cfg⟩
  | advances hl hF _ => exact ⟨hw, hF.le, hcd, fun _ => ⟨(hlocked hl).1, hF⟩, hwritten hl⟩

/-- Every transaction that completes keeps the invariants (R30). -/
theorem transact_keeps_invariants {x : Input} {s t : State} (hs : Invariants s) (h : transact x s = .next t) :
    Invariants t := by
  rcases transact_cases hs.1 hs.cur_lt h with ⟨-, rfl⟩ | ⟨-, rfl⟩ | ⟨b, -, he⟩
  · exact invariants_of_reset hs.1 rfl
  · exact hs
  · exact invariants_of_onbitEffect (s := startStep x s) hs he

/-- Taking the next pending input keeps the invariants. -/
theorem present_keeps_invariants {s : State} (hs : Invariants s) : Invariants (present s).2 := by
  unfold present
  split <;> exact hs

/-- Settles O42: a step is one transaction from the state with its input taken, and each effect of a transaction keeps
the invariants; a LOCKED cursor lies below `F`, and so below `8*FB`. -/
theorem stepKeepsInvariants : Obligations.StepKeepsInvariants := by
  refine ⟨fun s t hs h => transact_keeps_invariants (present_keeps_invariants hs) h, fun s hs hl => ?_⟩
  have hcur := hs.cur_lt hl
  have hb := Cfg.wf_bounds hs.1
  exact ⟨by omega, byteOfBit_lt hs.1 hcur⟩

end Sys2Proof.Machine
end

section
/-! SUPPORT. The places where the cursor and the countdown are written (R22, R23). -/

namespace Sys2Proof.Machine

/-- Settles O49: in each effect of a transaction the two counters are read off; at a frame's end the countdown of a
state that meets the invariants goes down by one. -/
theorem countersWrittenOnlyAsListed : Obligations.CountersWrittenOnlyAsListed := by
  intro x s t hs h
  rcases transact_cases hs.1 hs.cur_lt h with ⟨hd, rfl⟩ | ⟨-, rfl⟩ | ⟨b, -, he⟩
  · exact ⟨.inr (.inr (.inr ⟨rfl, .inl hd⟩)), .inr (.inr (.inr ⟨rfl, hd⟩))⟩
  · exact ⟨.inl rfl, .inl rfl⟩
  · have hpred := hs.countdownPred_add_one
    cases he with
    | scans _ _ => exact ⟨.inl rfl, .inl rfl⟩
    | acquires _ _ => exact ⟨.inr (.inl ⟨rfl, rfl, rfl⟩), .inr (.inl ⟨rfl, rfl, rfl⟩)⟩
    | flushes hl _ _ => exact ⟨.inr (.inl ⟨rfl, rfl, hl⟩), .inr (.inl ⟨rfl, rfl, hl⟩)⟩
    | resyncs hl _ _ => exact ⟨.inr (.inl ⟨rfl, rfl, hl⟩), .inr (.inl ⟨rfl, rfl, hl⟩)⟩
    | loses hl hF _ => exact ⟨.inr (.inr (.inl ⟨rfl, hl⟩)), .inr (.inr (.inl ⟨hpred hl, hl, hF⟩))⟩
    | emits hl hF _ =>
      exact ⟨.inr (.inr (.inr ⟨rfl, .inr ⟨_, rfl⟩⟩)), .inr (.inr (.inl ⟨hpred hl, hl, hF⟩))⟩
    | advances hl _ _ => exact ⟨.inr (.inr (.inl ⟨rfl, hl⟩)), .inl rfl⟩

end Sys2Proof.Machine
end

section
/-! SUPPORT. Observational equivalence (R33): states that differ in ports only, and UNLOCKED states with equal
windows, by a simulation that keeps the payload bits written since acquisition equal. -/

namespace Sys2Proof.Machine

/-! ### States with the same block and configuration -/

/-- The events depend on the block and the configuration alone (R29). -/
theorem obsEq_of_toBlock_eq {s t : State} (hc : s.cfg = t.cfg) (hb : s.toBlock = t.toBlock) : ObsEq s t := by
  intro xs
  induction xs generalizing s t with
  | nil => rfl
  | cons x xs ih =>
    unfold observe
    rw [transact_congr x hb hc]
    cases transact x s with
    | next u => exact congrArg (u.events :: ·) (ih (t := withInputs t.inputs u) rfl rfl)
    | fault f => rfl
    | refused r => rfl

/-! ### Buffers that agree on the first payload bits -/

/-- Two memories hold the same payload bits below `n`. -/
def AgreeBelow (n : Nat) (m m' : Memory) : Prop := ∀ i, i < n → payloadBit m i = payloadBit m' i

theorem AgreeBelow.mono {k n : Nat} {m m' : Memory} (h : AgreeBelow n m m') (hk : k ≤ n) : AgreeBelow k m m' :=
  fun i hi => h i (hi.trans_le hk)

/-- A bit written at the cursor extends the agreement by that bit. -/
theorem AgreeBelow.putPayloadBit {cur k : Nat} {m m' : Memory} (b : Bool) (h : AgreeBelow (max cur k) m m') :
    AgreeBelow (max (cur + 1) k) (putPayloadBit m cur b) (putPayloadBit m' cur b) := by
  intro i hi
  rw [payloadBit_putPayloadBit, payloadBit_putPayloadBit]
  split
  · rfl
  · exact h i (by omega)

/-- After the sync bytes are written the memories agree on the sync region, whatever they held. -/
theorem agreeBelow_writeSync {c : Cfg} (hw : c.wf) (m m' : Memory) :
    AgreeBelow c.S (writeBytes m 1 c.SYNC_SEQ) (writeBytes m' 1 c.SYNC_SEQ) := by
  have hb := Cfg.wf_bounds hw
  intro i hi
  have hin : 1 ≤ byteOfBit i ∧ byteOfBit i < 1 + c.SYNC_SEQ.length := by unfold byteOfBit; omega
  unfold payloadBit
  rw [readByte_writeBytes, readByte_writeBytes, if_pos hin, if_pos hin]

/-- Memories that agree on the bits of the first `n` payload bytes read alike there. -/
theorem AgreeBelow.readBytes_eq {k n : Nat} {m m' : Memory} (h : AgreeBelow k m m') (hn : 8 * n ≤ k) :
    readBytes m 1 n = readBytes m' 1 n := by
  refine readBytes_congr fun a h1 h2 => ?_
  obtain ⟨q, rfl⟩ : ∃ q, a = 1 + q := ⟨a - 1, by omega⟩
  exact readByte_eq_of_payloadBits fun j hj => h _ (by omega)

/-! ### The simulation -/

/-- The proviso of R33: a frame fills its last byte, and the header's bytes end before the early-resync window. -/
def NoStaleBits (c : Cfg) : Prop := c.F % 8 = 0 ∧ 8 * c.HB ≤ c.H + c.S - 1

/-- The same state with another buffer and other inputs pending. -/
def withBuffer (m : Memory) (ins : List Input) (s : State) : State := { s with buf := m, inputs := ins }

/-- States that the same events follow from (R33): UNLOCKED with equal windows, whatever the counters and the buffers
hold; or LOCKED and equal but for payload bits that will be written again before an emission reads them. -/
inductive SameFuture : State → State → Prop
  | unlocked {s t : State} (hc : t.cfg = s.cfg) (hs : s.lock = .UNLOCKED) (ht : t.lock = .UNLOCKED)
      (hwin : t.win = s.win) : SameFuture s t
  | locked {s : State} (m : Memory) (ins : List Input) (hl : s.lock = .LOCKED) (hcur : s.cur < s.cfg.F)
      (hm : AgreeBelow (max s.cur s.cfg.S) s.buf m) : SameFuture s (withBuffer m ins s)

theorem sameFuture_startStep {s t : State} (x : Input) (h : SameFuture s t) :
    SameFuture (startStep x s) (startStep x t) := by
  cases h with
  | unlocked hc hs ht hwin => exact .unlocked hc hs ht hwin
  | locked m ins hl hcur hm => exact .locked (s := startStep x s) m ins hl hcur hm

/-- A LOCKED state after an ONBIT has its cursor inside the frame. -/
theorem cur_lt_of_onbitEffect {b : Bool} {s t : State} (h : OnbitEffect b s t) (hw : s.cfg.wf) (hl : t.lock = .LOCKED) :
    t.cur < t.cfg.F := by
  have hb := Cfg.wf_bounds hw
  have hS : s.cfg.S < s.cfg.F := by omega
  cases h with
  | scans hs _ => exact nomatch hs.symm.trans hl
  | acquires _ _ => exact hS
  | flushes _ _ _ => exact hS
  | resyncs _ _ _ => exact hS
  | loses _ _ _ => exact nomatch hl
  | emits _ _ _ => exact Nat.zero_lt_of_lt hS
  | advances _ hF _ => exact hF

/-- Acquisition rewrites the counters, so it leaves states that differ in buffer and inputs only. -/
theorem acquired_eq_withBuffer {s t : State} (b : Bool) (hc : t.cfg = s.cfg) (hwin : t.win = s.win) (hq : t.sq = s.sq)
    (hev : t.events = s.events) :
    acquired b t = withBuffer (writeBytes t.buf 1 s.cfg.SYNC_SEQ) t.inputs (acquired b s) :=
  state_ext
    (block_ext rfl (congrArg (shifted b) hwin) (congrArg Cfg.S hc) (congrArg Cfg.MAX hc)
      (congrArg (fun c : Cfg => writeBytes t.buf 1 c.SYNC_SEQ) hc))
    hc rfl hq (congrArg (· ++ [Event.SetDecode true]) hev)

/-- In LOCKED states that agree on the bits that matter, an ONBIT has the same effect, with the same events, and leaves
states that agree again. -/
theorem onbitEffect_withBuffer {b : Bool} {s s' : State} {m : Memory} (ins : List Input) (h : OnbitEffect b s s')
    (hl : s.lock = .LOCKED) (hw : s.cfg.wf) (hns : NoStaleBits s.cfg) (hm : AgreeBelow (max s.cur s.cfg.S) s.buf m) :
    ∃ m', OnbitEffect b (withBuffer m ins s) (withBuffer m' ins s') ∧
      (s'.lock = .LOCKED → AgreeBelow (max s'.cur s'.cfg.S) s'.buf m') := by
  have hb := Cfg.wf_bounds hw
  obtain ⟨hF8, hHB⟩ := hns
  have hwritten := hm.putPayloadBit b
  cases h with
  | scans hs _ => exact nomatch hs.symm.trans hl
  | acquires hs _ => exact nomatch hs.symm.trans hl
  | flushes _ he hmatch =>
    have hearly := (inEarly_iff _ _).mp he
    have hbytes := hwritten.readBytes_eq (n := s.cfg.HB) (by omega)
    have htwin : flushed (written b (withBuffer m ins s)) =
        withBuffer (flushed (written b (withBuffer m ins s))).buf ins (flushed (written b s)) :=
      state_ext rfl rfl rfl rfl
        (congrArg (fun r => s.events ++ [Event.EmitHeader (s.cfg.PFX_HDR :: r)]) hbytes.symm)
    exact ⟨(flushed (written b (withBuffer m ins s))).buf, htwin ▸ .flushes hl he hmatch,
      fun _ => (agreeBelow_writeSync hw _ _).mono (max_self _).le⟩
  | resyncs _ hi hmatch =>
    exact ⟨_, .resyncs (s := withBuffer m ins s) hl hi hmatch,
      fun _ => hwritten.mono (max_le (le_max_right _ _) (le_max_right _ _))⟩
  | loses _ hF hd => exact ⟨_, .loses (s := withBuffer m ins s) hl hF hd, nofun⟩
  | emits _ hF hd =>
    have hbytes := hwritten.readBytes_eq (n := s.cfg.FB) (by omega)
    have htwin : emitted (counted b (withBuffer m ins s)) =
        withBuffer [] ins (emitted (counted b s)) :=
      state_ext rfl rfl rfl rfl
        (congrArg (fun r => s.events ++ [Event.EmitPayload (payloadPfx s.cfg (countdownPred s.cfg s.cd) ::
          (r ++ trailerBytes s))]) hbytes.symm)
    exact ⟨[], htwin ▸ .emits hl hF hd, fun _ _ _ => rfl⟩
  | advances _ hF hn => exact ⟨_, .advances (s := withBuffer m ins s) hl hF hn, fun _ => hwritten⟩

/-- ONBIT completes in both states, with the same events and the same future. -/
theorem sameFuture_exec_onbit {s t : State} (b : Bool) (h : SameFuture s t) (hw : s.cfg.wf) (hns : NoStaleBits s.cfg)
    (hq : t.sq = s.sq) (hev : t.events = s.events) :
    ∃ s' t', exec (.onbit b) s = .next s' ∧ exec (.onbit b) t = .next t' ∧ t'.events = s'.events ∧
      SameFuture s' t' := by
  cases h with
  | unlocked hc hs ht hwin =>
    have hwt : t.cfg.wf := hc ▸ hw
    have hscore : matchStart t.cfg (hamming t.cfg (shifted b t.win)) =
        matchStart s.cfg (hamming s.cfg (shifted b s.win)) := by rw [hc, hwin]
    cases hm : matchStart s.cfg (hamming s.cfg (shifted b s.win)) with
    | false =>
      exact ⟨shiftIn b s, shiftIn b t, exec_onbit_of_effect hw (by simp [hs]) (.scans hs hm),
        exec_onbit_of_effect hwt (by simp [ht]) (.scans ht (hscore.trans hm)), hev,
        .unlocked hc hs ht (congrArg (shifted b) hwin)⟩
    | true =>
      have he : OnbitEffect b s (acquired b s) := .acquires hs hm
      have ht' := exec_onbit_of_effect hwt (by simp [ht]) (.acquires ht (hscore.trans hm))
      rw [acquired_eq_withBuffer b hc hwin hq hev] at ht'
      exact ⟨acquired b s, _, exec_onbit_of_effect hw (by simp [hs]) he, ht', rfl,
        .locked _ _ rfl (cur_lt_of_onbitEffect he hw rfl) ((agreeBelow_writeSync hw _ _).mono (max_self _).le)⟩
  | locked m ins hl hcur hm =>
    obtain ⟨s', hs', he⟩ := exec_onbit_effect hw (fun _ => hcur) b
    obtain ⟨m', he', hm'⟩ := onbitEffect_withBuffer ins he hl hw hns hm
    refine ⟨s', _, hs', exec_onbit_of_effect (s := withBuffer m ins s) hw (fun _ => hcur) he', rfl, ?_⟩
    cases hl' : s'.lock with
    | UNLOCKED => exact .unlocked rfl hl' hl' rfl
    | LOCKED => exact .locked m' ins hl' (cur_lt_of_onbitEffect he hw hl') (hm' hl')

/-- Every transaction completes in both states, with the same events and the same future. -/
theorem sameFuture_transact {s t : State} (x : Input) (h : SameFuture s t) (hw : s.cfg.wf) (hns : NoStaleBits s.cfg) :
    ∃ s' t', transact x s = .next s' ∧ transact x t = .next t' ∧ t'.events = s'.events ∧ SameFuture s' t' := by
  have hstart := sameFuture_startStep x h
  unfold transact
  cases decode x.tx with
  | reset =>
    have hc : t.cfg = s.cfg := by cases h with | unlocked hc => exact hc | locked => rfl
    exact ⟨_, _, rfl, rfl, rfl, .unlocked hc rfl rfl rfl⟩
  | nop => exact ⟨_, _, rfl, rfl, rfl, hstart⟩
  | onbit b => exact sameFuture_exec_onbit b hstart hw hns rfl rfl

/-- States with the same future are observationally equivalent. -/
theorem obsEq_of_sameFuture {s t : State} (h : SameFuture s t) (hw : s.cfg.wf) (hns : NoStaleBits s.cfg) :
    ObsEq s t := by
  intro xs
  induction xs generalizing s t with
  | nil => rfl
  | cons x xs ih =>
    obtain ⟨s', t', hs', ht', hev, h'⟩ := sameFuture_transact x h hw hns
    have hc : s'.cfg = s.cfg := (transact_ports hs').1
    unfold observe
    rw [hs', ht']
    exact congrArg₂ List.cons hev.symm (ih h' (hc ▸ hw) (hc ▸ hns))

/-- Settles O54: LOCKED states by equal blocks, UNLOCKED states by the simulation. -/
theorem equalWindowsAreIndistinguishable : Obligations.EqualWindowsAreIndistinguishable :=
  ⟨fun _ _ hc _ hb => obsEq_of_toBlock_eq hc hb,
    fun _ _ hc hw hs ht hwin hF hHB => obsEq_of_sameFuture (.unlocked hc.symm hs ht hwin.symm) hw ⟨hF, hHB⟩⟩

end Sys2Proof.Machine
end

section
/-! SUPPORT. Payload bits in the buffer (R43, R44): what a bit write answers outside the buffer, what a run of bit
writes leaves in it, and the statements about both. -/

namespace Sys2Proof.Machine

/-! ### One bit -/

theorem bitWrite_error {i : Nat} {s : State} (b : Bool) (h : bufBytes s.cfg ≤ byteOfBit i) :
    bitWrite i b s = .error (.bufferBounds (byteOfBit i)) := if_neg (by omega)

/-- Settles O19: the bounds check decides; inside, the payload-bit law gives the bit written and the others, and the
byte law gives every byte but the bit's own. -/
theorem bitWriteWritesOneBit : Obligations.BitWriteWritesOneBit := by
  refine ⟨fun i b s h => ⟨_, bitWrite_ok h, ?written, fun k hk => ?otherBit, fun a ha => ?otherByte, rfl⟩,
    fun i b s h => bitWrite_error b h⟩
  case written => exact (payloadBit_putPayloadBit _ _ _ _).trans (if_pos rfl)
  case otherBit => exact (payloadBit_putPayloadBit _ _ _ _).trans (if_neg hk)
  case otherByte => exact (readByte_putPayloadBit _ _ _ _).trans (if_neg ha)

/-! ### A run of bits -/

/-- The memory after payload bit `k` is set to `bits k` for each `k` of `order`, in that order. -/
def putPayloadBits (bits : Nat → Bool) : List Nat → Memory → Memory
  | [], m => m
  | k :: order, m => putPayloadBits bits order (putPayloadBit m k (bits k))

/-- Bit writes inside the buffer complete, and write their bits. -/
theorem foldlM_bitWrite_ok {bits : Nat → Bool} {order : List Nat} {s : State}
    (h : ∀ k ∈ order, byteOfBit k < bufBytes s.cfg) :
    order.foldlM (fun u k => bitWrite k (bits k) u) s = .ok { s with buf := putPayloadBits bits order s.buf } := by
  induction order generalizing s with
  | nil => rfl
  | cons k order ih =>
    obtain ⟨hk, horder⟩ := List.forall_mem_cons.mp h
    rw [List.foldlM_cons, bitWrite_ok hk, ok_bind]
    exact ih horder

/-- Each payload bit is set by its own writes only, so the order does not show (R44). -/
theorem payloadBit_putPayloadBits (bits : Nat → Bool) (order : List Nat) (m : Memory) (i : Nat) :
    payloadBit (putPayloadBits bits order m) i = if i ∈ order then bits i else payloadBit m i := by
  induction order generalizing m with
  | nil => simp [putPayloadBits]
  | cons k order ih =>
    rw [putPayloadBits, ih, payloadBit_putPayloadBit]
    by_cases hk : i = k
    · subst hk; simp
    · simp [hk]

@[simp] theorem readByte_zero_putPayloadBits (bits : Nat → Bool) (order : List Nat) (m : Memory) :
    readByte (putPayloadBits bits order m) 0 = readByte m 0 := by
  induction order generalizing m with
  | nil => rfl
  | cons k order ih => rw [putPayloadBits, ih, readByte_zero_putPayloadBit]

/-- Settles O20: the indices below `8n` lie in the buffer, so every write completes; bit `7 - j` of byte `1 + q` is
payload bit `8q + j`, which is among them. -/
theorem bitWritesReadBackAsBytes : Obligations.BitWritesReadBackAsBytes := by
  intro n bits order s hn hperm
  have hmem (k : Nat) : k ∈ order ↔ k < 8 * n := hperm.mem_iff.trans List.mem_range
  have hfits : ∀ k ∈ order, byteOfBit k < bufBytes s.cfg := fun k hk => by
    have hlt := (hmem k).mp hk
    rw [bufBytes_eq, byteOfBit]; omega
  refine ⟨_, foldlM_bitWrite_ok hfits, fun q hq j hj => ?_, readByte_zero_putPayloadBits _ _ _⟩
  rw [getLsbD_readByte_eq_payloadBit _ q (by omega), payloadBit_putPayloadBits,
    show 7 - (7 - j) = j by omega, if_pos ((hmem _).mpr (by omega))]

end Sys2Proof.Machine
end

section
/-! SUPPORT. The writes of a whole region (R45 to R47): the sync bytes, the trailer and the clear. -/

namespace Sys2Proof.Machine

theorem writeSync_ok {s : State} (h : s.cfg.wf) :
    writeSync s = .ok { s with buf := writeBytes s.buf 1 s.cfg.SYNC_SEQ } := by
  obtain ⟨-, -, -, -, hlen, -⟩ := Cfg.wf_bounds h
  unfold writeSync
  rw [if_pos hlen, memWrite_ok (inBuffer_sync h)]

/-- Settles O22: the sync write is a memory write of `SB` bytes at 1, and the byte laws say where it shows; a cleared
buffer has no entry. -/
theorem syncWriteAndClear : Obligations.SyncWriteAndClear := by
  refine ⟨fun s hw => ?sync, fun s => ⟨fun j _ => readByte_nil j, rfl⟩⟩
  case sync =>
    obtain ⟨-, -, -, -, hlen, -⟩ := Cfg.wf_bounds hw
    exact ⟨_, writeSync_ok hw, fun k hk => readByte_writeBytes_inside _ _ (by omega),
      fun a ha => readByte_writeBytes_outside _ (by omega), rfl⟩

/-- The trailer's two bytes lie in the buffer whatever the configuration (R9, R46). -/
theorem writeTrailer_ok (q : Quality) (s : State) :
    writeTrailer q s = .ok { s with buf := writeBytes s.buf (1 + s.cfg.FB) [qHigh q, qLow q] } :=
  memWrite_ok (inBuffer_of_le (Nat.le_refl (1 + s.cfg.FB + 2)))

theorem toNat_qHigh (q : Quality) : (qHigh q).toNat = q.toNat / 256 := by
  have hq := q.isLt
  rw [qHigh, BitVec.extractLsb'_toNat, Nat.shiftRight_eq_div_pow]
  omega

theorem toNat_qLow (q : Quality) : (qLow q).toNat = q.toNat % 256 := by
  rw [qLow, BitVec.extractLsb'_toNat, Nat.shiftRight_zero]

/-- Settles O23: the trailer write puts `qHigh q` and then `qLow q` after the payload, and these are the quotient and
the remainder by 256. -/
theorem trailerWriteIsHighByteFirst : Obligations.TrailerWriteIsHighByteFirst := by
  intro q s
  refine ⟨_, writeTrailer_ok q s, ?high, ?low, fun a h1 h2 => ?other, rfl⟩
  case high =>
    rw [← toNat_qHigh]
    exact congrArg _ (Option.some.inj (readByte_writeBytes_inside (k := 0) _ _ Nat.zero_lt_two))
  case low =>
    rw [← toNat_qLow, show 2 + s.cfg.FB = 1 + s.cfg.FB + 1 by omega]
    exact congrArg _ (Option.some.inj (readByte_writeBytes_inside (k := 1) _ _ Nat.one_lt_two))
  case other =>
    exact readByte_writeBytes_outside _ (by simp only [List.length_cons, List.length_nil]; omega)

end Sys2Proof.Machine
end

section
/-! SUPPORT. The rolling window over a run of bits (R51): feeding bits shifts each of them in, and the bits of the
shifted window. -/

namespace Sys2Proof.Machine

/-- Everything a run of one input and more can do, if it reaches a state: each part does. -/
theorem feed_cons_eq_next {x : Input} {xs : List Input} {s t : State} :
    feed (x :: xs) s = .next t ↔ ∃ u, transact x s = .next u ∧ feed xs u = .next t := by
  rw [feed]
  cases transact x s <;> simp

/-- Presenting one bit shifts it in, in either lock state (R80). -/
theorem transact_bitInput_win {b : Bool} {q : Quality} {s t : State} (h : transact (bitInput b q) s = .next t) :
    t.win = shifted b s.win := by
  rw [transact_bitInput] at h
  obtain ⟨-, -, -, hwin⟩ := execOnbit_sameOutside h
  exact hwin

/-- A run of bits leaves the window after those bits. -/
theorem feed_bitsIn_win {bs : List (Bool × Quality)} {s t : State} (h : feed (bitsIn bs) s = .next t) :
    t.win = windowAfter s.win (bs.map Prod.fst) := by
  induction bs generalizing s with
  | nil => rw [← Host.Outcome.next.inj h]; rfl
  | cons p bs ih =>
    obtain ⟨u, hu, hrest⟩ := feed_cons_eq_next.mp h
    rw [ih hrest, transact_bitInput_win hu]; rfl

theorem windowAfter_concat (win : Word) (bs : List Bool) (b : Bool) :
    windowAfter win (bs ++ [b]) = shifted b (windowAfter win bs) := List.foldl_concat ..

/-- Bit `k` of the window is the bit that arrived `k` bits before the last one, and below those the old window (R51). -/
theorem getLsbD_windowAfter (win : Word) (bs : List Bool) {k : Nat} (hk : k < 64) :
    (windowAfter win bs).getLsbD k =
      if h : k < bs.length then bs[bs.length - 1 - k] else win.getLsbD (k - bs.length) := by
  induction bs using List.reverseRecOn generalizing k with
  | nil => rfl
  | append_singleton bs b ih =>
    rw [windowAfter_concat, getLsbD_shifted]
    cases k with
    | zero => simp
    | succ k =>
      rw [if_neg k.succ_ne_zero, decide_eq_true hk, Bool.true_and, Nat.add_sub_cancel, ih (by omega)]
      simp only [List.length_append, List.length_singleton, Nat.add_lt_add_iff_right, Nat.add_sub_add_right,
        Nat.add_sub_cancel]
      by_cases h : k < bs.length
      · rw [dif_pos h, dif_pos h, List.getElem_append_left (by omega)]
        congr 1; omega
      · rw [dif_neg h, dif_neg h]

/-- Settles O12: a run of bits leaves the window after them, whose bits are known. -/
theorem windowHoldsLastBits : Obligations.WindowHoldsLastBits := by
  intro bs s t h k hk
  rw [feed_bitsIn_win h, getLsbD_windowAfter _ _ hk]
  simp only [List.length_map, List.getElem_map]

end Sys2Proof.Machine
end

section
/-! SUPPORT. The decoder (R62, R69): what each class of word decodes to, what a step does on it, and how the rows of
the opcode table tell the classes apart. -/

namespace Sys2Proof.Machine

/-! ### The three classes of words -/

theorem decode_of_rst {tx : Tx} (h : tx.getLsbD 2 = true) : decode tx = .reset := if_pos h

theorem decode_of_valid {tx : Tx} (h2 : tx.getLsbD 2 = false) (h1 : tx.getLsbD 1 = true) :
    decode tx = .onbit (tx.getLsbD 0) := by
  unfold decode; rw [h2, if_neg Bool.false_ne_true, if_pos h1]

theorem decode_of_idle {tx : Tx} (h2 : tx.getLsbD 2 = false) (h1 : tx.getLsbD 1 = false) : decode tx = .nop := by
  unfold decode; rw [h2, h1, if_neg Bool.false_ne_true, if_neg Bool.false_ne_true]

/-! ### A step on a word without a bit -/

/-- A RESET word resets the block, whatever its open bits are (R62, R141). -/
theorem transact_of_decode_reset {x : Input} (h : decode x.tx = .reset) (s : State) :
    transact x s = .next { startStep x s with toBlock := Block.reset } := by
  unfold transact; rw [h, exec_reset]

/-- A NOP word leaves the state as the start of the step does, whatever its open bit is (R62, R142). -/
theorem transact_of_decode_nop {x : Input} (h : decode x.tx = .nop) (s : State) :
    transact x s = .next (startStep x s) := by
  unfold transact; rw [h, exec_nop]

/-- Settles O1: each class of words decodes by its own lemma, and a step on a word without a bit is one equation for
the whole class. -/
theorem decodePriority : Obligations.DecodePriority := by
  refine ⟨fun tx => ⟨decode_of_rst, decode_of_valid, decode_of_idle⟩, ?_, ?_, ?_, ?_⟩
  · intro tx tx' q s h h'
    rw [transact_of_decode_reset (decode_of_rst h), transact_of_decode_reset (decode_of_rst h')]; rfl
  · intro tx tx' q s h2 h1 h2' h1'
    rw [transact_of_decode_nop (decode_of_idle h2 h1), transact_of_decode_nop (decode_of_idle h2' h1')]; rfl
  · exact fun tx q s h => ⟨_, transact_of_decode_reset (decode_of_rst h) s, rfl⟩
  · exact fun tx q s h2 h1 => transact_of_decode_nop (decode_of_idle h2 h1) s

/-! ### The opcode table -/

/-- Settles O2: the eight words by evaluation; of the four words no mnemonic is written as, one decodes to NOP and three
to RESET, and neither can stop. -/
theorem wordsDecodeAsTabled : Obligations.WordsDecodeAsTabled := by
  refine ⟨rfl, rfl, rfl, rfl, rfl, rfl, rfl, rfl, fun w hw => ⟨_, if_pos hw⟩, fun w hw q s => ?_⟩
  have hclass : ∀ v ∈ [0b001, 0b101, 0b110, 0b111],
      decode (BitVec.ofNat 3 v) = .nop ∨ decode (BitVec.ofNat 3 v) = .reset := by decide
  rcases hclass w hw with h | h
  · exact ⟨_, transact_of_decode_nop h s⟩
  · exact ⟨_, transact_of_decode_reset h s⟩

/-- Decoding inverts encoding (R69). -/
theorem decode_encode (i : Instr) : decode (encode i) = i := by
  cases i with
  | reset => exact decode_of_rst rfl
  | onbit b => exact decode_encode_onbit b
  | nop => exact decode_of_idle rfl rfl

/-- The three rows against the eight words: a word's row is the one of its decoded instruction (R69). -/
theorem rowMatches_iff_mnemonic :
    ∀ tx : Tx, ∀ r ∈ opcodeTable, (rowMatches r tx = true ↔ r.mnemonic = (decode tx).mnemonic) := by decide

/-- Settles O3: the round trip holds constructor by constructor, the rows are compared with all eight words. -/
theorem decodeEncodeAgree : Obligations.DecodeEncodeAgree :=
  ⟨fun i _ => decode_encode i, rowMatches_iff_mnemonic⟩

end Sys2Proof.Machine
end

section
/-! SUPPORT. The pseudo-instructions of a test program (R71): the bits a `BITS` line presents, in order. -/

namespace Sys2Proof.Machine

/-- The lines that present the bits `bs`. -/
def linesOf (bs : List Bool) : List Line := bs.map fun b => lineOf (.onbit b)

/-- The `n` low bits of `v`, most significant first. -/
def lowBits (v : Word) (n : Nat) : List Bool := (List.range n).map fun k => v.getLsbD (n - 1 - k)

theorem lowBits_succ (v : Word) (n : Nat) : lowBits v (n + 1) = v.getLsbD n :: lowBits v n := by
  unfold lowBits
  rw [List.range_succ_eq_map, List.map_cons, List.map_map]
  refine congrArg (v.getLsbD n :: ·) (List.map_congr_left fun k _ => ?_)
  exact congrArg v.getLsbD (by omega)

/-- `BITS v/n` is one ONBIT for each of the low bits of `v` (R71). -/
theorem lineBits_eq_linesOf (v : Word) (n : Nat) : lineBits v n = linesOf (lowBits v n) := by
  induction n with
  | zero => rfl
  | succ n ih => rw [lineBits, ih, lowBits_succ]; rfl

/-- `BITS` of a word whose low `n` bits are all `b` repeats `b`. -/
theorem lineBits_eq_replicate {v : Word} {n : Nat} {b : Bool} (h : ∀ k, k < n → v.getLsbD k = b) :
    lineBits v n = List.replicate n (lineOf (.onbit b)) := by
  induction n with
  | zero => rfl
  | succ n ih => rw [lineBits, h n n.lt_succ_self, ih fun k hk => h k (Nat.lt_succ_of_lt hk), List.replicate_succ]

/-- Lines that present bits present them as inputs beside the quality that stands. -/
theorem inputsOf_linesOf (q : Quality) (bs : List Bool) :
    inputsOf q (linesOf bs) = bitsIn (bs.map fun b => (b, q)) := by
  induction bs with
  | nil => rfl
  | cons b bs ih => exact congrArg (bitInput b q :: ·) ih

/-- Settles O4: `BITS` is the list of its bits, which `SYNC` reads off the pattern; the bits of 0 and of all ones are
constant. -/
theorem pseudoInstructionsExpand : Obligations.PseudoInstructionsExpand := by
  refine ⟨fun v n => ⟨?_, fun k hk => ?_⟩, fun c q => ?_, fun _ _ => rfl, fun n => ?_, fun n hn => ?_⟩
  · simp [lineBits_eq_linesOf, linesOf, lowBits]
  · simp [lineBits_eq_linesOf, linesOf, lowBits, hk, lineOf]
  · rw [lineSync, lineBits_eq_linesOf, inputsOf_linesOf]; rfl
  · exact (lineBits_eq_replicate fun k _ => BitVec.getLsbD_zero).symm
  · refine (lineBits_eq_replicate fun k hk => ?_).symm
    rw [BitVec.getLsbD_allOnes, decide_eq_true (hk.trans_le hn)]

end Sys2Proof.Machine
end

section
/-! SUPPORT. The events of a step (R67): which list each effect leaves, and the first byte of every frame emitted in a
run (R68, R135). -/

namespace Sys2Proof.Machine

/-! ### One of five lists -/

theorem matchStart_eq_true {c : Cfg} {hd : Nat} : matchStart c hd = true ↔ hd ≤ c.START_TOL := decide_eq_true_iff

theorem matchStart_eq_false {c : Cfg} {hd : Nat} : matchStart c hd = false ↔ c.START_TOL < hd :=
  decide_eq_false_iff_not.trans Nat.not_le

theorem matchRun_eq_true {c : Cfg} {hd : Nat} : matchRun c hd = true ↔ hd ≤ c.RUN_TOL := decide_eq_true_iff

theorem length_headerFrame (c : Cfg) (m : Memory) : (c.PFX_HDR :: readBytes m 1 c.HB).length = hdrLen c := by
  rw [List.length_cons, length_readBytes, hdrLen, Nat.add_comm]

theorem length_payloadFrame (s : State) : (payloadFrame s).length = payLen s.cfg := by
  unfold payloadFrame payLen trailerBytes
  split <;> simp <;> omega

/-- Settles O50: RESET and NOP emit nothing, and each effect of ONBIT leaves one of the five lists under the condition
the effect happens under. -/
theorem eventListIsOneOfFive : Obligations.EventListIsOneOfFive := by
  intro x s t hs h
  have hw := hs.1
  rcases transact_cases hw hs.cur_lt h with ⟨hd, rfl⟩ | ⟨hd, rfl⟩ | ⟨b, hd, he⟩
  · exact .inl ⟨rfl, .inr (.inl hd)⟩
  · exact .inl ⟨rfl, .inl hd⟩
  · have hpred := hs.countdownPred_add_one
    cases he with
    | scans hl hm =>
      exact .inl ⟨rfl, .inr (.inr ⟨b, hd, fun _ => matchStart_eq_false.mp hm,
        fun h => absurd (hl.symm.trans h) nofun⟩)⟩
    | acquires hl hm => exact .inr ⟨b, hd, .inl ⟨rfl, hl, rfl, matchStart_eq_true.mp hm⟩⟩
    | flushes hl he hm =>
      exact .inr ⟨b, hd, .inr (.inl ⟨_, rfl, length_headerFrame .., hl, hl, he, matchRun_eq_true.mp hm⟩)⟩
    | resyncs hl hi hm =>
      refine .inl ⟨rfl, .inr (.inr ⟨b, hd, fun h => absurd (hl.symm.trans h) nofun,
        fun _ => ⟨fun hF => ?_, fun he => ?_⟩⟩)⟩
      · have hout := (frame_end_in_no_window hw).2
        rw [← hF] at hout
        exact Bool.false_ne_true (hout.symm.trans hi)
      · exact absurd ((not_inInpos_of_inEarly hw he).symm.trans hi) Bool.false_ne_true
    | loses hl hF hz =>
      exact .inr ⟨b, hd, .inr (.inr (.inr ⟨loseLock_events _, hl, rfl, hF, hpred hl, hz⟩))⟩
    | emits hl hF hz =>
      exact .inr ⟨b, hd, .inr (.inr (.inl
        ⟨_, rfl, length_payloadFrame _, hl, hl, hF, hpred hl, Nat.pos_of_ne_zero hz⟩))⟩
    | advances hl hF hn =>
      refine .inl ⟨rfl, .inr (.inr ⟨b, hd, fun h => absurd (hl.symm.trans h) nofun,
        fun _ => ⟨hF.ne, fun he => ?_⟩⟩)⟩
      exact Nat.lt_of_not_le fun hle =>
        Bool.false_ne_true ((hn (matchRun_eq_true.mpr hle)).1.symm.trans he)

/-! ### The first byte of a frame -/

/-- An emitted frame starts with the code written for it (R68); an event that carries no frame is free. -/
def CarriesCode (c : Cfg) : Event → Prop
  | .EmitHeader bytes => bytes[0]? = some c.PFX_HDR
  | .EmitPayload bytes => bytes[0]? = some c.PFX_FLAG ∨ bytes[0]? = some c.PFX_NOFLAG
  | .SetDecode _ => True
  | .LockLost => True

theorem payloadPfx_eq_or (c : Cfg) (cd : Nat) : payloadPfx c cd = c.PFX_FLAG ∨ payloadPfx c cd = c.PFX_NOFLAG :=
  ite_eq_or_eq ..

/-- What an ONBIT emits carries its code, if what was emitted before did. -/
theorem carriesCode_of_onbitEffect {b : Bool} {s t : State} (h : OnbitEffect b s t)
    (hs : ∀ e ∈ s.events, CarriesCode s.cfg e) : ∀ e ∈ t.events, CarriesCode s.cfg e := by
  have happ {e : Event} (he : CarriesCode s.cfg e) : ∀ e' ∈ s.events ++ [e], CarriesCode s.cfg e' :=
    List.forall_mem_append.mpr ⟨hs, List.forall_mem_singleton.mpr he⟩
  cases h with
  | scans _ _ => exact hs
  | acquires _ _ => exact happ trivial
  | flushes _ _ _ => exact happ rfl
  | resyncs _ _ _ => exact hs
  | loses _ _ _ =>
    rw [loseLock_events]
    exact List.forall_mem_append.mpr ⟨hs, by simp [CarriesCode]⟩
  | emits _ _ _ =>
    exact happ ((payloadPfx_eq_or s.cfg (countdownPred s.cfg s.cd)).imp (congrArg some) (congrArg some))
  | advances _ _ _ => exact hs

/-- Every event of a transaction carries its code. -/
theorem transact_carriesCode {x : Input} {s t : State} (hs : Invariants s) (h : transact x s = .next t) :
    ∀ e ∈ t.events, CarriesCode s.cfg e := by
  have hnil : ∀ e ∈ (startStep x s).events, CarriesCode s.cfg e := List.forall_mem_nil _
  rcases transact_cases hs.1 hs.cur_lt h with ⟨-, rfl⟩ | ⟨-, rfl⟩ | ⟨b, -, he⟩
  · exact hnil
  · exact hnil
  · exact carriesCode_of_onbitEffect (s := startStep x s) he hnil

/-- A property of the events of every step that keeps the invariants holds of every event of a run. -/
theorem forall_mem_observe {P : State → Prop} {Q : Event → Prop}
    (hstep : ∀ x s t, P s → transact x s = .next t → P t ∧ ∀ e ∈ t.events, Q e) (xs : List Input) {s : State}
    (hs : P s) : ∀ e ∈ (observe xs s).flatten, Q e := by
  induction xs generalizing s with
  | nil => exact List.forall_mem_nil _
  | cons x xs ih =>
    unfold observe
    cases h : transact x s with
    | next t =>
      obtain ⟨ht, hev⟩ := hstep x s t hs h
      exact List.forall_mem_append.mpr ⟨hev, ih ht⟩
    | fault f => exact List.forall_mem_nil _
    | refused r => exact List.forall_mem_nil _

/-- An accepted configuration is well-formed, and gives the reset state (R144). -/
theorem construct_eq_next {c : Cfg} {s : State} (h : construct c = .next s) : c.wf ∧ s = State.resetWith c := by
  unfold construct at h
  split at h
  · cases h
  · exact ⟨‹_›, (Host.Outcome.next.inj h).symm⟩

/-- Settles O51: a run starts in the reset state, every transaction keeps the invariants and the configuration,
and what it emits carries its code. -/
theorem emittedFramesCarryTheirCode : Obligations.EmittedFramesCarryTheirCode := by
  intro c xs s h e he
  obtain ⟨hw, rfl⟩ := construct_eq_next h
  have hcode : CarriesCode c e := by
    refine forall_mem_observe (P := fun s => Invariants s ∧ s.cfg = c) (fun x s t hs ht => ?_) xs
      ⟨invariants_of_reset hw rfl, rfl⟩ e he
    obtain ⟨hinv, rfl⟩ := hs
    exact ⟨⟨transact_keeps_invariants hinv ht, (transact_ports ht).1⟩, transact_carriesCode hinv ht⟩
  cases e <;> exact hcode

end Sys2Proof.Machine
end

section
/-! SUPPORT. Where the signal quality is read (R64): every part of ONBIT but a payload emission commutes with another
value on the input, whatever the configuration. -/

namespace Sys2Proof.Machine

/-- The same state with `q` on the signal-quality input. -/
def withSq (q : Quality) (s : State) : State := { s with sq := q }

/-- Everything the full anchor can do, and exactly when it answers (R101). -/
theorem fullAnchor_eq_ok_iff {s t : State} :
    fullAnchor s = .ok t ↔
      (s.cfg.SYNC_SEQ.length = s.cfg.SB ∧ inBuffer s.cfg 1 s.cfg.SYNC_SEQ.length = true) ∧
      t = anchor { s with buf := writeBytes s.buf 1 s.cfg.SYNC_SEQ } := by
  unfold fullAnchor writeSync
  by_cases hl : s.cfg.SYNC_SEQ.length = s.cfg.SB
  · rw [if_pos hl, bind_eq_ok]
    simp only [memWrite_eq_ok, Except.ok.injEq]
    constructor
    · rintro ⟨u, ⟨hi, rfl⟩, rfl⟩; exact ⟨⟨hl, hi⟩, rfl⟩
    · rintro ⟨⟨-, hi⟩, rfl⟩; exact ⟨_, ⟨hi, rfl⟩, rfl⟩
  · simp [hl]

section
variable (q : Quality) {s t : State}

/-! ### The parts that do not read it -/

theorem fullAnchor_withSq (h : fullAnchor s = .ok t) : fullAnchor (withSq q s) = .ok (withSq q t) := by
  obtain ⟨hfits, rfl⟩ := fullAnchor_eq_ok_iff.mp h
  exact fullAnchor_eq_ok_iff.mpr ⟨hfits, rfl⟩

theorem onbitUnlocked_withSq {b : Bool} (h : onbitUnlocked b s = .ok t) :
    onbitUnlocked b (withSq q s) = .ok (withSq q t) := by
  unfold onbitUnlocked at h ⊢
  dsimp only at h
  split at h
  case isTrue hm =>
    obtain ⟨u, hu, ht⟩ := bind_eq_ok.mp h
    rw [← Except.ok.inj ht]
    exact (if_pos hm).trans (bind_eq_ok.mpr ⟨_, fullAnchor_withSq q hu, rfl⟩)
  case isFalse hm =>
    rw [← Except.ok.inj h]
    exact if_neg hm

theorem earlyResync_withSq {hd : Nat} (h : earlyResync hd s = .ok t) :
    earlyResync hd (withSq q s) = .ok (withSq q t) := by
  unfold earlyResync at h ⊢
  split at h
  case isTrue hm =>
    obtain ⟨u, hu, h⟩ := bind_eq_ok.mp h
    obtain ⟨bytes, hbytes, h⟩ := bind_eq_ok.mp h
    obtain ⟨hi, rfl⟩ := memWrite_eq_ok.mp hu
    exact (if_pos hm).trans (bind_eq_ok.mpr ⟨_, memWrite_eq_ok.mpr ⟨hi, rfl⟩,
      bind_eq_ok.mpr ⟨bytes, hbytes, fullAnchor_withSq q h⟩⟩)
  case isFalse hm =>
    rw [← Except.ok.inj h]
    exact if_neg hm

theorem inposResync_withSq (hd : Nat) (s : State) :
    inposResync hd (withSq q s) = withSq q (inposResync hd s) := by
  unfold inposResync
  show (if (inInpos s.cfg s.cur && matchRun s.cfg hd) = true then _ else _) = _
  split <;> rfl

/-! ### Completion and the whole ONBIT -/

/-- `u` is the outcome `t` of a step, but for another quality `q` on its input: the block and the configuration are the
same, and so are the events unless the step ended in a payload emission with `SQ_ENABLE`. -/
def SameButQuality (q : Quality) (t u : State) : Prop :=
  u.toBlock = t.toBlock ∧ u.cfg = t.cfg ∧
  (t.cfg.SQ_ENABLE = false ∨ (∀ pre bytes, t.events ≠ pre ++ [.EmitPayload bytes]) → u = withSq q t)

theorem sameButQuality_withSq (t : State) : SameButQuality q t (withSq q t) := ⟨rfl, rfl, fun _ => rfl⟩

/-- Without `SQ_ENABLE` a payload emission reads no quality either. -/
theorem emitted_withSq (h : s.cfg.SQ_ENABLE = false) : emitted (withSq q s) = withSq q (emitted s) := by
  have htrailer : ∀ u : State, u.cfg = s.cfg → trailerBytes u = [] := fun u hu => by
    unfold trailerBytes; rw [hu, h]; rfl
  unfold emitted payloadFrame
  rw [htrailer _ rfl, htrailer (withSq q s) rfl]; rfl

theorem sameButQuality_emitted (s : State) : SameButQuality q (emitted s) (emitted (withSq q s)) := by
  refine ⟨rfl, rfl, ?_⟩
  rintro (hoff | hne)
  · exact emitted_withSq q hoff
  · exact absurd rfl (hne s.events (payloadFrame s))

theorem completion_withSq (h : completion s = .ok t) :
    ∃ u, completion (withSq q s) = .ok u ∧ SameButQuality q t u := by
  unfold completion at h ⊢
  dsimp only at h
  split at h
  case isTrue hF =>
    rw [if_pos (show (withSq q s).cur = (withSq q s).cfg.F from hF)]
    split at h
    case isTrue hz =>
      rw [← Except.ok.inj h]
      exact ⟨_, if_pos hz, sameButQuality_withSq q _⟩
    case isFalse hz =>
      rw [← Except.ok.inj ((emitFrame_ok _).symm.trans h)]
      exact ⟨_, (if_neg hz).trans (emitFrame_ok _), sameButQuality_emitted q _⟩
  case isFalse hF =>
    rw [← Except.ok.inj h]
    exact ⟨_, if_neg hF, sameButQuality_withSq q s⟩

theorem onbitLocked_withSq {b : Bool} (h : onbitLocked b s = .ok t) :
    ∃ u, onbitLocked b (withSq q s) = .ok u ∧ SameButQuality q t u := by
  obtain ⟨hb, v, hv, ht⟩ := onbitLocked_eq_ok h
  obtain ⟨u, hu, hsame⟩ := completion_withSq q ht
  refine ⟨u, ?_, hsame⟩
  rw [← inposResync_withSq] at hu
  rw [onbitLocked_eq (s := withSq q s) hb]
  exact bind_eq_ok.mpr ⟨_, earlyResync_withSq q hv, hu⟩

/-- Another quality on the input makes a difference to the bytes of a payload emission only (R64). -/
theorem exec_withSq {i : Instr} (h : exec i s = .next t) :
    ∃ u, exec i (withSq q s) = .next u ∧ SameButQuality q t u := by
  cases i with
  | reset => cases h; exact ⟨_, rfl, sameButQuality_withSq q _⟩
  | nop => cases h; exact ⟨_, rfl, sameButQuality_withSq q _⟩
  | onbit b =>
    cases hl : s.lock with
    | UNLOCKED =>
      rw [exec_onbit_unlocked hl, answer_eq_next] at h
      rw [exec_onbit_unlocked (s := withSq q s) hl]
      exact ⟨_, answer_eq_next.mpr (onbitUnlocked_withSq q h), sameButQuality_withSq q t⟩
    | LOCKED =>
      rw [exec_onbit_locked hl, answer_eq_next] at h
      obtain ⟨u, hu, hsame⟩ := onbitLocked_withSq q h
      rw [exec_onbit_locked (s := withSq q s) hl]
      exact ⟨u, answer_eq_next.mpr hu, hsame⟩

/-- No instruction writes the configuration (R173). -/
theorem exec_cfg {i : Instr} (h : exec i s = .next t) : t.cfg = s.cfg := by
  cases i with
  | reset => cases h; rfl
  | nop => cases h; rfl
  | onbit b => exact (execOnbit_sameOutside h).1

end

/-- Settles O52: the parts of ONBIT commute with another quality, and its one reader is the trailer of a payload
emission. -/
theorem qualityReadOnlyByEmission : Obligations.QualityReadOnlyByEmission := by
  intro i s t q h
  obtain ⟨u, hu, hblock, hcfg, heq⟩ := exec_withSq q h
  refine ⟨⟨u, hu, hblock, hcfg⟩, fun hcond => ?_⟩
  rw [← exec_cfg h] at hcond
  exact hu.trans (congrArg _ (heq hcond))

end Sys2Proof.Machine
end

section
/-! SUPPORT. The window shift and the match signals (R80 to R83): the shifted window as a number, the Hamming distance
as a count with its two bounds, and the thresholds. -/

namespace Sys2Proof.Machine

/-! ### The shift -/

theorem shifted_eq_shiftConcat (b : Bool) (win : Word) : shifted b win = win.shiftConcat b :=
  BitVec.eq_of_getLsbD_eq fun k _ => by
    rw [getLsbD_shifted, BitVec.getLsbD_shiftConcat]
    by_cases hk : k = 0 <;> simp [hk]

/-- The shifted window as a number (R80). -/
theorem toNat_shifted (b : Bool) (win : Word) : (shifted b win).toNat = (2 * win.toNat + b.toNat) % 2 ^ 64 := by
  rw [shifted_eq_shiftConcat, BitVec.toNat_shiftConcat, Nat.shiftLeft_eq, pow_one, Nat.mul_comm]

/-- Settles O11: an ONBIT that completes leaves the shifted window, in either lock state. -/
theorem everyOnbitShifts : Obligations.EveryOnbitShifts := by
  intro b s t h
  obtain ⟨-, -, -, hwin⟩ := execOnbit_sameOutside h
  rw [hwin, shiftIn_win, toNat_shifted]

/-! ### The distance -/

/-- The distance counts the positions where the masked window and the pattern differ (R81). -/
theorem hamming_eq_card (c : Cfg) (win : Word) :
    hamming c win = ((Finset.range 64).filter fun k =>
      (win.getLsbD k && c.MASK.getLsbD k) ≠ c.PATTERN.getLsbD k).card := by
  simp only [hamming, popcount_eq_card, getLsbD_diff, bne_iff_ne]

/-- Settles O13: the distance is the number of positions that differ, and no popcount exceeds 64. -/
theorem hammingCountsDifferences : Obligations.HammingCountsDifferences :=
  fun c win => ⟨hamming_eq_card c win, popcount_le _⟩

/-- A pattern bit outside the mask differs from the masked window's 0. -/
theorem popcount_unmasked_le_hamming (c : Cfg) (win : Word) :
    popcount (c.PATTERN &&& ~~~ c.MASK) ≤ hamming c win := by
  refine popcount_mono fun k hk h => ?_
  obtain ⟨hpat, hmask⟩ : c.PATTERN.getLsbD k = true ∧ c.MASK.getLsbD k = false := by simpa [hk] using h
  rw [getLsbD_diff, hpat, hmask, Bool.and_false]; rfl

/-- A position that differs is one of the mask's, or a pattern bit outside the mask. -/
theorem hamming_le_popcount_mask_add (c : Cfg) (win : Word) :
    hamming c win ≤ popcount c.MASK + popcount (c.PATTERN &&& ~~~ c.MASK) := by
  refine popcount_le_add fun k hk h => ?_
  rw [getLsbD_diff] at h
  cases hmask : c.MASK.getLsbD k with
  | true => exact .inl rfl
  | false =>
    have hpat : c.PATTERN.getLsbD k = true := by simpa [hmask] using h
    exact .inr (by rw [BitVec.getLsbD_and, BitVec.getLsbD_not, hpat, hmask, decide_eq_true hk]; rfl)

/-- Settles O14: the lower bound on the distance, and when the distance is 0. -/
theorem unmaskedPatternBitsAreErrors : Obligations.UnmaskedPatternBitsAreErrors :=
  ⟨popcount_unmasked_le_hamming, hamming_eq_zero_iff⟩

/-! ### The thresholds -/

/-- Settles O15: tolerance 0 asks for distance 0, and the wide tolerance is the upper bound on the distance. -/
theorem startThresholdIsInclusive : Obligations.StartThresholdIsInclusive := by
  refine ⟨fun _ _ => matchStart_eq_true, fun c win hzero => ?zeroTolerance, fun c hwide win => ?wideTolerance⟩
  case zeroTolerance => rw [matchStart_eq_true, hzero, Nat.le_zero, hamming_eq_zero_iff]
  case wideTolerance => exact matchStart_eq_true.mpr ((hamming_le_popcount_mask_add c win).trans hwide)

/-- Settles O16: both thresholds are inclusive, and `WF_TOL` puts the start tolerance below the run tolerance. -/
theorem startMatchIsRunMatch : Obligations.StartMatchIsRunMatch := by
  refine ⟨fun _ _ => matchRun_eq_true, fun c hd hw hstart => ?_⟩
  have htol : c.START_TOL < c.RUN_TOL := of_decide_eq_true ((Cfg.wf_iff_meets c).mp hw .WF_TOL)
  exact matchRun_eq_true.mpr ((matchStart_eq_true.mp hstart).trans htol.le)

end Sys2Proof.Machine
end

section
/-! SUPPORT. No false lock (R85): a window too far from the pattern is only shifted in, whatever the configuration, and
the last `S` bits alone already tell that it is too far. -/

namespace Sys2Proof.Machine

/-- An UNLOCKED step whose window is too far from the pattern only shifts the window, whatever the configuration
(R102). -/
theorem exec_onbit_of_no_match {b : Bool} {s : State} (hl : s.lock = .UNLOCKED)
    (hfar : s.cfg.START_TOL < hamming s.cfg (shifted b s.win)) : exec (.onbit b) s = .next (shiftIn b s) := by
  have hscan : onbitUnlocked b s = .ok (shiftIn b s) :=
    if_neg fun hm => hfar.not_ge (matchStart_eq_true.mp hm)
  rw [exec_onbit_unlocked hl, hscan, answer_ok]

/-- The differences among some positions are at most all of them. -/
theorem popcount_diff_and_le_hamming (c : Cfg) (win sel : Word) :
    popcount (((win &&& c.MASK) ^^^ c.PATTERN) &&& sel) ≤ hamming c win := by
  refine popcount_mono fun k _ h => ?_
  rw [BitVec.getLsbD_and, Bool.and_eq_true] at h
  exact h.1

/-- The mask of the low `n` bits, for `n` up to 64. -/
theorem getLsbD_lowOnes {n : Nat} (hn : n ≤ 64) (k : Nat) :
    (BitVec.allOnes 64 >>> (64 - n)).getLsbD k = decide (k < n) := by
  rw [BitVec.getLsbD_ushiftRight, BitVec.getLsbD_allOnes, decide_eq_decide]
  omega

/-- Where the mask covers the low `n` bits, it makes no difference to the comparison of those bits. -/
theorem diff_and_lowOnes_of_mask {c : Cfg} {n : Nat} (hn : n ≤ 64) (hmask : ∀ k, k < n → c.MASK.getLsbD k = true)
    (win : Word) :
    ((win &&& c.MASK) ^^^ c.PATTERN) &&& (BitVec.allOnes 64 >>> (64 - n)) =
      (win ^^^ c.PATTERN) &&& (BitVec.allOnes 64 >>> (64 - n)) := by
  refine BitVec.eq_of_getLsbD_eq fun k _ => ?_
  rw [BitVec.getLsbD_and, BitVec.getLsbD_and, getLsbD_lowOnes hn, getLsbD_diff, BitVec.getLsbD_xor]
  by_cases hk : k < n
  · rw [hmask k hk, Bool.and_true]
  · rw [decide_eq_false hk, Bool.and_false, Bool.and_false]

/-- Settles O17: the differences among the last `S` bits are no more than the distance, which then fails the start
threshold. -/
theorem noFalseLockUnderMask : Obligations.NoFalseLockUnderMask :=
  fun _ _ hl hfar => exec_onbit_of_no_match hl (hfar.trans_le (popcount_diff_and_le_hamming ..))

/-- Settles O18: with the mask covering the last `S` bits, the unmasked difference is the masked one of O17. -/
theorem noFalseLockFullMask : Obligations.NoFalseLockFullMask := by
  intro b s hl hmask hS hfar
  rw [← diff_and_lowOnes_of_mask hS hmask] at hfar
  exact noFalseLockUnderMask b s hl hfar

end Sys2Proof.Machine
end

section
/-! SUPPORT. ONBIT in UNLOCKED (R100, R102): a window within the start tolerance acquires lock, any other is only
shifted in. -/

namespace Sys2Proof.Machine

/-- An UNLOCKED step whose window is within the start tolerance acquires lock (R100); `exec_onbit_of_no_match` is the
other case. -/
theorem exec_onbit_of_match {b : Bool} {s : State} (hw : s.cfg.wf) (hl : s.lock = .UNLOCKED)
    (hm : hamming s.cfg (shifted b s.win) ≤ s.cfg.START_TOL) : exec (.onbit b) s = .next (acquired b s) :=
  exec_onbit_of_effect hw (fun h => absurd (hl.symm.trans h) nofun) (.acquires hl (matchStart_eq_true.mpr hm))

/-- Settles O24: the threshold decides between the two effects of an UNLOCKED step; the fields of the acquired state are
read off, and its buffer has the sync bytes written over bytes `1 .. SB`. -/
theorem unlockedOnbitAcquiresOrScans : Obligations.UnlockedOnbitAcquiresOrScans := by
  intro b s hw hl
  refine ⟨fun hm => ?acquires, exec_onbit_of_no_match hl⟩
  case acquires =>
    obtain ⟨-, -, -, -, hlen, -⟩ := Cfg.wf_bounds hw
    exact ⟨acquired b s, exec_onbit_of_match hw hl hm, rfl, rfl, rfl, rfl, rfl, ⟨rfl, rfl, rfl⟩,
      fun k hk => readByte_writeBytes_inside _ _ (hlen ▸ hk),
      fun a ha => readByte_writeBytes_outside _ (by omega)⟩

end Sys2Proof.Machine
end

section
/-! SUPPORT. Feeding the canonical pattern in UNLOCKED (R103): the pattern's last window is at distance 0, so some bit
acquires lock; the bits after it keep the state tracking, which says where the cursor is when the pattern ends. -/

namespace Sys2Proof.Machine

/-! ### Runs with their events -/

/-- Presenting `xs` takes `s` to `t`, and `evs` is what an observer sees. -/
structure RunsTo (xs : List Input) (s : State) (evs : List Event) (t : State) : Prop where
  feed_eq : feed xs s = .next t
  events_eq : (observe xs s).flatten = evs

theorem RunsTo.nil (s : State) : RunsTo [] s [] s := ⟨rfl, rfl⟩

theorem RunsTo.cons {x : Input} {xs : List Input} {s t u : State} {evs : List Event} (h : transact x s = .next u)
    (hrest : RunsTo xs u evs t) : RunsTo (x :: xs) s (u.events ++ evs) t := by
  refine ⟨feed_cons_eq_next.mpr ⟨u, h, hrest.feed_eq⟩, ?_⟩
  rw [observe, h, List.flatten_cons, hrest.events_eq]

/-- The inputs that present the bits `bs`, with `q` on the signal-quality input beside each. -/
def bitsAt (q : Quality) (bs : List Bool) : List Input := bitsIn (bs.map fun b => (b, q))

theorem RunsTo.win_eq {q : Quality} {bs : List Bool} {s t : State} {evs : List Event}
    (h : RunsTo (bitsAt q bs) s evs t) : t.win = windowAfter s.win bs := by
  rw [feed_bitsIn_win h.feed_eq, List.map_map]
  exact congrArg (windowAfter s.win) (List.map_id bs)

/-! ### The pattern's last window -/

theorem length_patternBits (c : Cfg) : (patternBits c).length = c.S := by
  rw [patternBits, List.length_map, List.length_range]

/-- After the whole pattern the low `S` bits of the window are the pattern's, whatever the window held. -/
theorem getLsbD_windowAfter_patternBits {c : Cfg} (hS : c.S ≤ 64) (win : Word) {k : Nat} (hk : k < c.S) :
    (windowAfter win (patternBits c)).getLsbD k = c.PATTERN.getLsbD k := by
  rw [getLsbD_windowAfter _ _ (hk.trans_le hS), dif_pos (by rwa [length_patternBits])]
  simp only [patternBits, List.getElem_map, List.getElem_range, List.length_map, List.length_range]
  congr 1; omega

/-- With the mask over the low `S` bits and no pattern bit outside it, the pattern ends at distance 0 (R103). -/
theorem hamming_windowAfter_patternBits {c : Cfg} (hS : c.S ≤ 64) (hmask : c.MASK = BitVec.allOnes 64 >>> (64 - c.S))
    (hpat : c.PATTERN &&& ~~~ c.MASK = 0) (win : Word) : hamming c (windowAfter win (patternBits c)) = 0 := by
  refine (hamming_eq_zero_iff _ _).mpr (BitVec.eq_of_getLsbD_eq fun k hk64 => ?_)
  have hmaskBit : c.MASK.getLsbD k = decide (k < c.S) := by rw [hmask, getLsbD_lowOnes hS]
  rw [BitVec.getLsbD_and, hmaskBit]
  by_cases hk : k < c.S
  · rw [getLsbD_windowAfter_patternBits hS win hk, decide_eq_true hk, Bool.and_true]
  · have hout : (c.PATTERN &&& ~~~ c.MASK).getLsbD k = false := by rw [hpat]; exact BitVec.getLsbD_zero
    rw [BitVec.getLsbD_and, BitVec.getLsbD_not, hmaskBit, decide_eq_false hk, decide_eq_true hk64] at hout
    rw [decide_eq_false hk, Bool.and_false]
    simpa using hout.symm

/-! ### The bits after acquisition -/

/-- LOCKED with a full countdown and a cursor of at least `S`; and while the cursor is at most `S + 2`, a window within
the run tolerance has put it at `S` (R114, R117). -/
structure Tracking (s : State) : Prop where
  lock_eq : s.lock = .LOCKED
  cd_eq : s.cd = s.cfg.MAX
  le_cur : s.cfg.S ≤ s.cur
  cur_of_match : s.cur ≤ s.cfg.S + 2 → hamming s.cfg s.win ≤ s.cfg.RUN_TOL → s.cur = s.cfg.S

/-- The counters of an anchor make a LOCKED state track, whatever the window is. -/
theorem tracking_of_anchored {s : State} (hl : s.lock = .LOCKED) (hcd : s.cd = s.cfg.MAX) (hcur : s.cur = s.cfg.S) :
    Tracking s :=
  ⟨hl, hcd, hcur.ge, fun _ _ => hcur⟩

/-- A bit that does not end the frame keeps the state tracking, and no event is seen with the cursor at most two bits
past `S`, which no early resync reaches. -/
theorem Tracking.transact_bit {s : State} (h : Tracking s) (hw : s.cfg.wf) (hF : s.cur + 1 < s.cfg.F) (b : Bool)
    (q : Quality) : ∃ u, transact (bitInput b q) s = .next u ∧ Tracking u ∧ u.cfg = s.cfg ∧ u.cur ≤ s.cur + 1 ∧
      (s.cur ≤ s.cfg.S + 1 → u.events = []) := by
  obtain ⟨hlock, hcd, hcur, -⟩ := h
  obtain ⟨u, hu, heff⟩ :=
    exec_onbit_effect (s := startStep (bitInput b q) s) hw (fun _ => Nat.lt_of_succ_lt hF) b
  refine ⟨u, (transact_bitInput b q s).trans hu, ?_⟩
  cases heff with
  | scans hl _ => exact absurd (hlock.symm.trans hl) nofun
  | acquires hl _ => exact absurd (hlock.symm.trans hl) nofun
  | flushes _ he _ =>
    refine ⟨tracking_of_anchored hlock rfl rfl, rfl, Nat.le_succ_of_le hcur, fun hnear => ?_⟩
    have hb := Cfg.wf_bounds hw
    have hlo := ((inEarly_iff s.cfg (s.cur + 1)).mp he).1
    omega
  | resyncs _ _ _ => exact ⟨tracking_of_anchored hlock rfl rfl, rfl, Nat.le_succ_of_le hcur, fun _ => rfl⟩
  | loses _ hend _ => exact absurd hend hF.ne
  | emits _ hend _ => exact absurd hend hF.ne
  | advances _ _ hn =>
    refine ⟨⟨hlock, hcd, Nat.le_succ_of_le hcur, fun hnear hm => ?_⟩, rfl, le_rfl, fun _ => rfl⟩
    have hin : inInpos s.cfg (s.cur + 1) = true := (inInpos_iff _ _).mpr ⟨by omega, hnear⟩
    exact absurd (hin.symm.trans (hn (matchRun_eq_true.mpr hm)).2) nofun

/-- Bits that do not reach the frame's end keep the state tracking. -/
theorem Tracking.run (q : Quality) (bs : List Bool) {s : State} (h : Tracking s) (hw : s.cfg.wf)
    (hF : s.cur + bs.length < s.cfg.F) : ∃ t evs, RunsTo (bitsAt q bs) s evs t ∧ Tracking t ∧ t.cfg = s.cfg ∧
      t.cur ≤ s.cur + bs.length ∧ (s.cur + bs.length ≤ s.cfg.S + 2 → evs = []) := by
  induction bs generalizing s with
  | nil => exact ⟨s, [], .nil s, h, rfl, le_rfl, fun _ => rfl⟩
  | cons b bs ih =>
    rw [List.length_cons] at hF ⊢
    obtain ⟨u, hu, htrack, hcfg, hcur, hquiet⟩ := h.transact_bit hw (by omega) b q
    obtain ⟨t, evs, hrun, htrack', hcfg', hcur', hquiet'⟩ := ih htrack (hcfg ▸ hw) (by rw [hcfg]; omega)
    rw [hcfg] at hquiet'
    refine ⟨t, u.events ++ evs, hrun.cons hu, htrack', hcfg'.trans hcfg, by omega, fun hnear => ?_⟩
    rw [hquiet (by omega), hquiet' (by omega), List.append_nil]

/-! ### The first match -/

/-- No window before the last three bits is within the start tolerance: a first match is at most two bits early. -/
def FarBeforeLastThree (c : Cfg) (win : Word) (bs : List Bool) : Prop :=
  allWindows (fun w => decide (c.START_TOL < hamming c w)) win (bs.take (bs.length - 3)) = true

theorem FarBeforeLastThree.of_cons {c : Cfg} {win : Word} {b : Bool} {bs : List Bool}
    (h : FarBeforeLastThree c win (b :: bs)) :
    (2 < bs.length → c.START_TOL < hamming c (shifted b win)) ∧ FarBeforeLastThree c (shifted b win) bs := by
  unfold FarBeforeLastThree at h ⊢
  by_cases hlen : 2 < bs.length
  · have hstep : (b :: bs).length - 3 = (bs.length - 3) + 1 := by rw [List.length_cons]; omega
    rw [hstep, List.take_succ_cons, allWindows, Bool.and_eq_true] at h
    exact ⟨fun _ => of_decide_eq_true h.1, h.2⟩
  · rw [show bs.length - 3 = 0 by omega]
    exact ⟨fun hlong => absurd hlong hlen, rfl⟩

/-- Feeding `bs` to `s` acquires lock `j` bits before the last: decode active is seen first, and alone for `j` up to 2,
and the run ends tracking with the cursor at most `j` past `S` (R103). -/
def AcquiresEarly (q : Quality) (bs : List Bool) (j : Nat) (s : State) : Prop :=
  ∃ t evs, RunsTo (bitsAt q bs) s (.SetDecode true :: evs) t ∧ Tracking t ∧ t.cfg = s.cfg ∧ t.cur ≤ s.cfg.S + j ∧
    (j ≤ 2 → evs = [])

/-- The first bit matches: all the others come after the acquisition. -/
theorem acquiresEarly_of_match {q : Quality} {b : Bool} {bs : List Bool} {s : State} (hw : s.cfg.wf)
    (hl : s.lock = .UNLOCKED) (hm : hamming s.cfg (shifted b s.win) ≤ s.cfg.START_TOL)
    (hF : s.cfg.S + bs.length < s.cfg.F) : AcquiresEarly q (b :: bs) bs.length s := by
  have hstep : transact (bitInput b q) s = .next (acquired b (startStep (bitInput b q) s)) :=
    (transact_bitInput b q s).trans (exec_onbit_of_match (s := startStep (bitInput b q) s) hw hl hm)
  obtain ⟨t, evs, hrun, htrack, hcfg, hcur, hquiet⟩ :=
    (tracking_of_anchored (s := acquired b (startStep (bitInput b q) s)) rfl rfl rfl).run q bs hw hF
  exact ⟨t, evs, hrun.cons hstep, htrack, hcfg, hcur, fun hj => hquiet (Nat.add_le_add_left hj _)⟩

/-- The first bit does not match: the acquisition is among the others. -/
theorem AcquiresEarly.cons_of_no_match {q : Quality} {b : Bool} {bs : List Bool} {j : Nat} {s : State}
    (hl : s.lock = .UNLOCKED) (hfar : s.cfg.START_TOL < hamming s.cfg (shifted b s.win))
    (h : AcquiresEarly q bs j (shiftIn b (startStep (bitInput b q) s))) : AcquiresEarly q (b :: bs) j s := by
  have hstep : transact (bitInput b q) s = .next (shiftIn b (startStep (bitInput b q) s)) :=
    (transact_bitInput b q s).trans (exec_onbit_of_no_match (s := startStep (bitInput b q) s) hl hfar)
  obtain ⟨t, evs, hrun, htrack, hcfg, hcur, hquiet⟩ := h
  exact ⟨t, evs, hrun.cons hstep, htrack, hcfg, hcur, hquiet⟩

/-- Bits whose last window matches acquire lock some `j` bits early, if the bits after the match do not reach the
frame's end; `j` is at most 2 if no window before the last three bits matches. -/
theorem exists_acquiresEarly (q : Quality) (bs : List Bool) {s : State} (hw : s.cfg.wf) (hl : s.lock = .UNLOCKED)
    (hne : bs ≠ []) (hlast : hamming s.cfg (windowAfter s.win bs) ≤ s.cfg.START_TOL) :
    ∃ j, j < bs.length ∧ (FarBeforeLastThree s.cfg s.win bs → j ≤ 2) ∧
      (s.cfg.S + j < s.cfg.F → AcquiresEarly q bs j s) := by
  induction bs generalizing s with
  | nil => exact absurd rfl hne
  | cons b bs ih =>
    by_cases hm : hamming s.cfg (shifted b s.win) ≤ s.cfg.START_TOL
    · refine ⟨bs.length, Nat.lt_succ_self _, fun hfar => ?_, acquiresEarly_of_match hw hl hm⟩
      exact Nat.le_of_not_lt fun hlong => (hfar.of_cons.1 hlong).not_ge hm
    · have hrest : bs ≠ [] := by rintro rfl; exact hm hlast
      obtain ⟨j, hj, hj2, hacq⟩ := ih (s := shiftIn b (startStep (bitInput b q) s)) hw hl hrest hlast
      exact ⟨j, Nat.lt_succ_of_lt hj, fun hfar => hj2 hfar.of_cons.2,
        fun hF => (hacq hF).cons_of_no_match hl (Nat.lt_of_not_le hm)⟩

/-! ### The canonical pattern -/

/-- The pattern in UNLOCKED has a first match, fewer than `S` bits early. -/
theorem exists_acquiresEarly_patternBits (q : Quality) {s : State} (hw : s.cfg.wf) (hl : s.lock = .UNLOCKED)
    (hmask : s.cfg.MASK = BitVec.allOnes 64 >>> (64 - s.cfg.S)) (hpat : s.cfg.PATTERN &&& ~~~ s.cfg.MASK = 0) :
    ∃ j, j < s.cfg.S ∧ (FarBeforeLastThree s.cfg s.win (patternBits s.cfg) → j ≤ 2) ∧
      (s.cfg.S + j < s.cfg.F → AcquiresEarly q (patternBits s.cfg) j s) := by
  obtain ⟨hS, hS64, -⟩ := Cfg.wf_bounds hw
  have hne : patternBits s.cfg ≠ [] := by
    rw [← List.length_pos_iff, length_patternBits]; omega
  have hlast : hamming s.cfg (windowAfter s.win (patternBits s.cfg)) ≤ s.cfg.START_TOL := by
    rw [hamming_windowAfter_patternBits hS64 hmask hpat]; exact Nat.zero_le _
  simpa only [length_patternBits] using exists_acquiresEarly q (patternBits s.cfg) hw hl hne hlast

/-- Settles O25: the match is at most two bits early, so the run ends tracking with the cursor at most `S + 2`, and the
pattern's last window, at distance 0, has put it at `S`. -/
theorem canonicalPatternAcquires : Obligations.CanonicalPatternAcquires := by
  intro s q hw hl hmask hpat hfar
  have hb := Cfg.wf_bounds hw
  obtain ⟨j, -, hj2, hacq⟩ := exists_acquiresEarly_patternBits q hw hl hmask hpat
  have hj : j ≤ 2 := hj2 (by rwa [FarBeforeLastThree, length_patternBits])
  obtain ⟨t, evs, hrun, htrack, hcfg, hcur, hquiet⟩ := hacq (by omega)
  have hdist : hamming t.cfg t.win = 0 := by
    rw [hcfg, hrun.win_eq, hamming_windowAfter_patternBits hb.2.1 hmask hpat]
  have hS : t.cur = t.cfg.S := htrack.cur_of_match (by rw [hcfg]; omega) (by rw [hdist]; exact Nat.zero_le _)
  rw [hquiet hj] at hrun
  exact ⟨t, hrun.feed_eq, htrack.lock_eq, hcfg ▸ htrack.cd_eq, hcfg ▸ hS, hrun.events_eq⟩

/-- Settles O55: at most `S - 1` bits follow the match, so with `2*S <= F` none of them ends a frame and the run ends
tracking. -/
theorem canonicalPatternEndsLocked : Obligations.CanonicalPatternEndsLocked := by
  intro s q hw hl hmask hpat hF
  obtain ⟨j, hj, -, hacq⟩ := exists_acquiresEarly_patternBits q hw hl hmask hpat
  obtain ⟨t, evs, hrun, htrack, hcfg, -⟩ := hacq (by omega)
  exact ⟨t, hrun.feed_eq, htrack.lock_eq, hcfg ▸ htrack.le_cur, hcfg ▸ htrack.cd_eq, congrArg List.head? hrun.events_eq⟩

end Sys2Proof.Machine
end

section
/-! SUPPORT. ONBIT in LOCKED (R110 to R126): what the bit write leaves in the buffer, what an emitted frame carries, and
the statements about each of the things a LOCKED step does. -/

namespace Sys2Proof.Machine

/-! ### The bit written and the bits carried -/

/-- The buffer after a bit write (R43): the bit, every other payload bit, and every byte but the bit's own. -/
theorem putPayloadBit_frame (m : Memory) (i : Nat) (b : Bool) :
    payloadBit (putPayloadBit m i b) i = b ∧ (∀ k, k ≠ i → payloadBit (putPayloadBit m i b) k = payloadBit m k) ∧
    (∀ a, a ≠ byteOfBit i → readByte (putPayloadBit m i b) a = readByte m a) :=
  ⟨(payloadBit_putPayloadBit m i b i).trans (if_pos rfl),
    fun k hk => (payloadBit_putPayloadBit m i b k).trans (if_neg hk),
    fun a ha => (readByte_putPayloadBit m i b a).trans (if_neg ha)⟩

/-- A frame whose first byte is followed by the first `n` payload bytes carries their payload bits (R42, R50). -/
theorem frameBit_cons_readBytes (v : Byte) (m : Memory) {n i : Nat} (rest : List Byte) (hi : i < 8 * n) :
    frameBit (v :: (readBytes m 1 n ++ rest)) i = payloadBit m i := by
  have hbyte : i / 8 < n := by omega
  have hget : (v :: (readBytes m 1 n ++ rest)).getD (byteOfBit i) unlistedByte = readByte m (byteOfBit i) := by
    rw [byteOfBit, Nat.add_comm 1, List.getD_cons_succ, List.getD_append _ _ _ _ (by rwa [length_readBytes]),
      List.getD_eq_getElem?_getD, getElem?_readBytes _ _ hbyte, Nat.add_comm]
    rfl
  rw [frameBit, hget, payloadBit]

/-- A payload frame carries the payload bits the buffer holds (R126). -/
theorem frameBit_payloadFrame {s : State} {i : Nat} (hi : i < 8 * s.cfg.FB) :
    frameBit (payloadFrame s) i = payloadBit s.buf i :=
  frameBit_cons_readBytes _ _ _ hi

/-- Byte `1 + FB + k` of a payload frame is byte `k` of its trailer (R46, R126). -/
theorem getD_payloadFrame_trailer (s : State) (k : Nat) :
    (payloadFrame s).getD (1 + s.cfg.FB + k) 0 = (trailerBytes s).getD k 0 := by
  rw [payloadFrame, show 1 + s.cfg.FB + k = s.cfg.FB + k + 1 by omega, List.getD_cons_succ,
    List.getD_append_right _ _ _ _ (by rw [length_readBytes]; omega), length_readBytes, Nat.add_sub_cancel_left]

/-- The countdown of a completion that has not run out (R124). -/
theorem countdownPred_of_pos (c : Cfg) {cd : Nat} (h : 0 < cd) : countdownPred c cd = cd - 1 := if_neg h.ne'

/-! ### The cursor windows -/

/-- Settles O31: the windows are apart, and `WF_EARLY_IN_FRAME` and `4 ≤ H` bound the early one on both sides. -/
theorem cursorWindowsAreDisjoint : Obligations.CursorWindowsAreDisjoint := by
  intro c k hw he
  have hb := Cfg.wf_bounds hw
  have hk := (inEarly_iff c k).mp he
  exact ⟨not_inInpos_of_inEarly hw he, by omega, by omega⟩

/-! ### A step that does not end the frame -/

/-- Settles O28: with no check fired the step only advances, and the rest is the bit write's frame. -/
theorem lockedOnbitWritesItsBit : Obligations.LockedOnbitWritesItsBit := by
  intro b s hw hl hF hn
  exact ⟨written b s,
    exec_onbit_of_effect hw (fun _ => Nat.lt_of_succ_lt hF) (.advances hl hF fun hm => hn (matchRun_eq_true.mp hm)),
    hl, rfl, rfl, rfl, rfl, ⟨rfl, rfl, rfl⟩, putPayloadBit_frame s.buf s.cur b⟩

/-- Settles O32: the in-position resync writes the two registers of an anchor over the bit write, and no buffer byte. -/
theorem inPositionResyncMovesCursorOnly : Obligations.InPositionResyncMovesCursorOnly := by
  intro b s hw hl hlo hhi hm
  have hb := Cfg.wf_bounds hw
  have hin : inInpos s.cfg (s.cur + 1) = true := (inInpos_iff _ _).mpr (by omega)
  exact ⟨anchor (written b s),
    exec_onbit_of_effect hw (fun _ => by omega) (.resyncs hl hin (matchRun_eq_true.mpr hm)),
    hl, rfl, rfl, rfl, rfl, ⟨rfl, rfl, rfl⟩, putPayloadBit_frame s.buf s.cur b⟩

/-- The buffer after an early resync (R114, R101): the header code, the sync bytes, and the payload bits beyond them. -/
theorem flushed_buf {s : State} (hw : s.cfg.wf) :
    readByte (flushed s).buf 0 = s.cfg.PFX_HDR ∧
    (∀ k, k < s.cfg.SB → some (readByte (flushed s).buf (1 + k)) = s.cfg.SYNC_SEQ[k]?) ∧
    (∀ i, 8 * s.cfg.SB ≤ i → payloadBit (flushed s).buf i = payloadBit s.buf i) := by
  obtain ⟨-, -, -, -, hlen, -⟩ := Cfg.wf_bounds hw
  refine ⟨?code, fun k hk => readByte_writeBytes_inside _ _ (hlen ▸ hk), fun i hi => ?beyond⟩
  case code =>
    exact (readByte_writeBytes_outside _ (.inl Nat.zero_lt_one)).trans
      ((readByte_writeByte _ _ _ _).trans (if_pos rfl))
  case beyond =>
    have hbyte : 1 + s.cfg.SYNC_SEQ.length ≤ byteOfBit i := by rw [byteOfBit]; omega
    have hkept : readByte (flushed s).buf (byteOfBit i) = readByte s.buf (byteOfBit i) :=
      (readByte_writeBytes_outside _ (.inr hbyte)).trans ((readByte_writeByte _ _ _ _).trans (if_neg (by omega)))
    rw [payloadBit, payloadBit, hkept]

/-- Settles O29: the step flushes the header; the frame's bits and the payload beyond the sync region are those of the
buffer with the new bit written. -/
theorem earlyResyncFlushesHeader : Obligations.EarlyResyncFlushesHeader := by
  intro b s hw hl hlo hhi hm
  have hb := Cfg.wf_bounds hw
  have he : inEarly s.cfg (s.cur + 1) = true := (inEarly_iff _ _).mpr (by omega)
  obtain ⟨hcode, hsync, hbeyond⟩ := flushed_buf (s := written b s) hw
  refine ⟨flushed (written b s), s.cfg.PFX_HDR :: readBytes (written b s).buf 1 s.cfg.HB,
    exec_onbit_of_effect hw (fun _ => by omega) (.flushes hl he (matchRun_eq_true.mpr hm)),
    hl, rfl, rfl, rfl, rfl, ⟨rfl, rfl, rfl⟩, length_headerFrame .., rfl, fun i hi => ?_, hcode, hsync, fun i hi => ?_⟩
  · rw [← List.append_nil (readBytes _ _ _), frameBit_cons_readBytes _ _ _ hi]
    exact payloadBit_putPayloadBit ..
  · exact (hbeyond i hi).trans (payloadBit_putPayloadBit ..)

/-- Settles O30: part 3 leaves the state of an anchor, whose cursor `S` is in the in-position window, and an anchor
written again writes the same. -/
theorem earlyThenInposChangesNothing : Obligations.EarlyThenInposChangesNothing := by
  intro hd s t hw he hm h
  have hflush : earlyResync hd s = .ok (flushed s) :=
    (if_pos (Bool.and_eq_true_iff.mpr ⟨he, hm⟩)).trans (flushHeader_ok hw)
  obtain rfl : flushed s = t := Except.ok.inj (hflush.symm.trans h)
  exact ⟨inInpos_S s.cfg, hm, if_pos (Bool.and_eq_true_iff.mpr ⟨inInpos_S s.cfg, hm⟩)⟩

/-! ### Completion -/

/-- A completion with the countdown at 2 or above emits a frame (R126). -/
theorem exec_onbit_emits {b : Bool} {s : State} (hw : s.cfg.wf) (hl : s.lock = .LOCKED) (hF : s.cur + 1 = s.cfg.F)
    (hcd : 2 ≤ s.cd) : exec (.onbit b) s = .next (emitted (counted b s)) := by
  refine exec_onbit_of_effect hw (fun _ => by omega) (.emits hl hF ?_)
  rw [countdownPred_of_pos _ (by omega)]; omega

/-- A completion with the countdown at 1 loses lock (R125). -/
theorem exec_onbit_loses {b : Bool} {s : State} (hw : s.cfg.wf) (hl : s.lock = .LOCKED) (hF : s.cur + 1 = s.cfg.F)
    (hcd : s.cd = 1) : exec (.onbit b) s = .next (loseLock (counted b s)) :=
  exec_onbit_of_effect hw (fun _ => by omega) (.loses hl hF (by rw [hcd]; rfl))

/-- The countdown a completion leaves (R124). -/
theorem counted_cd {b : Bool} {s : State} (h : 0 < s.cd) : (counted b s).cd = s.cd - 1 := countdownPred_of_pos _ h

/-- Settles O33: the step emits; the frame's first byte is chosen by the decremented countdown, its bits are those of the
buffer with the new bit written, and its trailer holds the quality's two bytes. -/
theorem completionEmitsPayload : Obligations.CompletionEmitsPayload := by
  intro b s hw hl hF hcd
  have hpred : (counted b s).cd = s.cd - 1 := counted_cd (by omega)
  refine ⟨emitted (counted b s), payloadFrame (counted b s), exec_onbit_emits hw hl hF hcd, hl, rfl, hpred, rfl, rfl,
    ⟨rfl, rfl, rfl⟩, readByte_nil, length_payloadFrame _, ?first, fun i hi => ?bits, fun hq => ?trailer⟩
  case first => exact hpred ▸ rfl
  case bits => exact (frameBit_payloadFrame (s := counted b s) hi).trans (payloadBit_putPayloadBit ..)
  case trailer =>
    have htrailer : trailerBytes (counted b s) = [qHigh s.sq, qLow s.sq] := if_pos hq
    have hget := getD_payloadFrame_trailer (counted b s)
    rw [htrailer] at hget
    exact ⟨(congrArg _ (hget 0)).trans (toNat_qHigh s.sq),
      by rw [show 2 + s.cfg.FB = 1 + s.cfg.FB + 1 by omega]; exact (congrArg _ (hget 1)).trans (toNat_qLow s.sq)⟩

/-- Settles O34: the step loses lock, which writes neither the buffer nor the cursor after the bit write; with another
quality on the input it is the same effect. -/
theorem completionLosesLock : Obligations.CompletionLosesLock := by
  intro b s hw hl hF hcd
  have hzero : (counted b s).cd = 0 := by rw [counted_cd (by omega), hcd]
  obtain ⟨hbit, hothers, hbytes⟩ := putPayloadBit_frame s.buf s.cur b
  exact ⟨loseLock (counted b s), exec_onbit_loses hw hl hF hcd, rfl, rfl, hzero, hF, loseLock_events _, ⟨rfl, rfl, rfl⟩,
    hbit, hothers, hbytes, fun q => exec_onbit_loses (s := withSq q s) hw hl hF hcd⟩

/-- Settles O35: the countdown is 1, and its decrement loses lock; or it is at least 2, and its decrement emits. -/
theorem decrementThenCompare : Obligations.DecrementThenCompare := by
  intro b s hw hl hF hcd
  have hpred : (counted b s).cd + 1 = s.cd := by rw [counted_cd hcd]; omega
  obtain hone | hmore : s.cd = 1 ∨ 2 ≤ s.cd := by omega
  · have hzero : (counted b s).cd = 0 := by omega
    refine ⟨loseLock (counted b s), exec_onbit_loses hw hl hF hone, hpred, iff_of_true rfl hzero,
      iff_of_false (fun ⟨bytes, hev⟩ => ?_) (not_not_intro hzero)⟩
    rw [loseLock_events] at hev
    exact absurd (List.append_cancel_left hev) (by simp)
  · have hpos : (counted b s).cd ≠ 0 := by omega
    exact ⟨emitted (counted b s), exec_onbit_emits hw hl hF hmore, hpred,
      iff_of_false (fun h => absurd (hl.symm.trans h) nofun) hpos, iff_of_true ⟨_, rfl⟩ hpos⟩

end Sys2Proof.Machine
end

section
/-! SUPPORT. Invariants of a LOCKED state over single steps: a cursor below `S` has only zeros from it on (R118), and a
countdown that starts at 1 emits no payload frame (R130). -/

namespace Sys2Proof.Machine

/-! ### The tail of a frame begun cold -/

/-- Nothing is written from the cursor on, nor in byte 0, while a LOCKED cursor is below `S`: the frame began at 0 with a
cleared buffer (R118, R126). -/
def ZeroTail (s : State) : Prop :=
  s.lock = .LOCKED → s.cur < s.cfg.S → readByte s.buf 0 = 0x00 ∧ ∀ i, s.cur ≤ i → payloadBit s.buf i = false

/-- After an anchor the cursor is not below `S`. -/
theorem zeroTail_of_cur_eq {s : State} (h : s.cur = s.cfg.S) : ZeroTail s := fun _ hlt => absurd h hlt.ne

/-- Every effect of ONBIT keeps the zero tail: it anchors, unlocks, clears, or writes the one bit at the cursor it
advances past. -/
theorem zeroTail_of_onbitEffect {b : Bool} {s t : State} (hs : ZeroTail s) (h : OnbitEffect b s t) : ZeroTail t := by
  cases h with
  | scans _ _ => exact hs
  | acquires _ _ => exact zeroTail_of_cur_eq rfl
  | flushes _ _ _ => exact zeroTail_of_cur_eq rfl
  | resyncs _ _ _ => exact zeroTail_of_cur_eq rfl
  | loses _ _ _ => exact nofun
  | emits _ _ _ => exact fun _ _ => ⟨readByte_nil 0, fun _ _ => BitVec.getLsbD_zero⟩
  | advances hl _ _ =>
    intro _ hcur
    obtain ⟨hcode, htail⟩ := hs hl (Nat.lt_of_succ_lt hcur)
    obtain ⟨-, hothers, -⟩ := putPayloadBit_frame s.buf s.cur b
    exact ⟨(readByte_zero_putPayloadBit ..).trans hcode,
      fun i hi => (hothers i (Nat.ne_of_gt hi)).trans (htail i (Nat.le_of_succ_le hi))⟩

/-- Every transaction that completes keeps the zero tail. -/
theorem transact_keeps_zeroTail {x : Input} {s t : State} (hinv : Invariants s) (hs : ZeroTail s)
    (h : transact x s = .next t) : ZeroTail t := by
  rcases transact_cases hinv.1 hinv.cur_lt h with ⟨-, rfl⟩ | ⟨-, rfl⟩ | ⟨b, -, he⟩
  · exact nofun
  · exact hs
  · exact zeroTail_of_onbitEffect (s := startStep x s) hs he

/-- Settles O36: every step keeps the zero tail; and the in-position resync writes no bit but the one at the old cursor,
so the indices it skips stay as they were. -/
theorem skippedBitsReadZero : Obligations.SkippedBitsReadZero := by
  refine ⟨fun x s t hinv hs h => transact_keeps_zeroTail hinv hs h, fun b s hinv hl hlo hhi htail hm => ?_⟩
  obtain ⟨t, ht, -, -, -, hcur, -, -, -, hothers, -⟩ :=
    inPositionResyncMovesCursorOnly b s hinv.1 hl hlo (by omega) hm
  exact ⟨t, ht, hcur, fun i hi _ => (hothers i (Nat.ne_of_gt hi)).trans (htail i (Nat.le_of_succ_le hi))⟩

/-! ### A countdown of one -/

/-- Settles O37: of the five event lists only one has a payload frame, and its countdown was at least 2. -/
theorem maxOneNeverEmitsPayload : Obligations.MaxOneNeverEmitsPayload := by
  intro x s t hinv hmax h bytes
  have ⟨_, _, hcd, _⟩ := hinv
  rcases eventListIsOneOfFive x s t hinv h with ⟨hev, -⟩ | ⟨b, -, hcases⟩
  · simp [hev]
  · rcases hcases with ⟨hev, -⟩ | ⟨_, hev, -⟩ | ⟨_, -, -, -, -, -, hdown, hpos⟩ | ⟨hev, -⟩
    · simp [hev]
    · simp [hev]
    · omega
    · simp [hev]

end Sys2Proof.Machine
end

section
/-! SUPPORT. Runs in two parts: what the second part starts from, what a run keeps, and quiet bits. -/

namespace Sys2Proof.Machine

/-- A run that reaches a state goes on from it. -/
theorem feed_append {xs : List Input} {s u : State} (h : feed xs s = .next u) (ys : List Input) :
    feed (xs ++ ys) s = feed ys u := by
  induction xs generalizing s with
  | nil => rw [Host.Outcome.next.inj h]; rfl
  | cons x xs ih =>
    obtain ⟨v, hv, hrest⟩ := feed_cons_eq_next.mp h
    rw [List.cons_append, feed, hv]
    exact ih hrest

theorem observe_append {xs : List Input} {s u : State} (h : feed xs s = .next u) (ys : List Input) :
    observe (xs ++ ys) s = observe xs s ++ observe ys u := by
  induction xs generalizing s with
  | nil => rw [Host.Outcome.next.inj h]; rfl
  | cons x xs ih =>
    obtain ⟨v, hv, hrest⟩ := feed_cons_eq_next.mp h
    rw [List.cons_append, observe, observe, hv]
    exact congrArg (v.events :: ·) (ih hrest)

theorem bitsIn_append (bs bs' : List (Bool × Quality)) : bitsIn (bs ++ bs') = bitsIn bs ++ bitsIn bs' :=
  List.map_append

/-- One bit more at the end of a run. -/
theorem feed_bitsIn_concat {bs : List (Bool × Quality)} {b : Bool} {q : Quality} {s u t : State}
    (h : feed (bitsIn bs) s = .next u) (hstep : transact (bitInput b q) u = .next t) :
    feed (bitsIn (bs ++ [(b, q)])) s = .next t ∧
      observe (bitsIn (bs ++ [(b, q)])) s = observe (bitsIn bs) s ++ [t.events] := by
  rw [bitsIn_append, feed_append h, observe_append h]
  simp [bitsIn, feed, observe, hstep]

theorem RunsTo.append {xs ys : List Input} {s u t : State} {evs evs' : List Event} (h : RunsTo xs s evs u)
    (h' : RunsTo ys u evs' t) : RunsTo (xs ++ ys) s (evs ++ evs') t :=
  ⟨(feed_append h.feed_eq ys).trans h'.feed_eq, by
    rw [observe_append h.feed_eq, List.flatten_append, h.events_eq, h'.events_eq]⟩

/-- A run that reaches a state keeps the invariants. -/
theorem feed_keeps_invariants {xs : List Input} {s t : State} (hs : Invariants s) (h : feed xs s = .next t) :
    Invariants t := by
  induction xs generalizing s with
  | nil => rwa [← Host.Outcome.next.inj h]
  | cons x xs ih =>
    obtain ⟨u, hu, hrest⟩ := feed_cons_eq_next.mp h
    exact ih (transact_keeps_invariants hs hu) hrest

/-- A run that reaches a state keeps the configuration. -/
theorem feed_keeps_cfg {xs : List Input} {s t : State} (h : feed xs s = .next t) : t.cfg = s.cfg := by
  induction xs generalizing s with
  | nil => rw [← Host.Outcome.next.inj h]
  | cons x xs ih =>
    obtain ⟨u, hu, hrest⟩ := feed_cons_eq_next.mp h
    exact (ih hrest).trans (transact_ports hu).1

theorem allWindows_append (p : Word → Bool) (win : Word) (bs bs' : List Bool) :
    allWindows p win (bs ++ bs') = (allWindows p win bs && allWindows p (windowAfter win bs) bs') := by
  induction bs generalizing win with
  | nil => rfl
  | cons b bs ih => rw [List.cons_append, allWindows, allWindows, ih, Bool.and_assoc]; rfl

/-- Quiet bits are quiet in two parts. -/
theorem quiet_append {c : Cfg} {win : Word} {bs bs' : List Bool} :
    quiet c win (bs ++ bs') = true ↔ quiet c win bs = true ∧ quiet c (windowAfter win bs) bs' = true := by
  unfold quiet
  rw [allWindows_append, Bool.and_eq_true]

theorem quiet_singleton {c : Cfg} {win : Word} {b : Bool} :
    quiet c win [b] = true ↔ c.RUN_TOL < hamming c (shifted b win) := by
  simp [quiet, allWindows]

end Sys2Proof.Machine
end

section
/-! SUPPORT. Runs of bits in LOCKED: a stream that keeps matching (R131), a quiet frame period (R127), and the quiet
stream that runs the countdown out (R128, R129). -/

namespace Sys2Proof.Machine

/-- An effect of ONBIT from the start of a step is what presenting the bit does. -/
theorem transact_bitInput_of_effect {b : Bool} {q : Quality} {s t : State} (hw : s.cfg.wf)
    (hc : s.lock = .LOCKED → s.cur < s.cfg.F) (h : OnbitEffect b (startStep (bitInput b q) s) t) :
    transact (bitInput b q) s = .next t :=
  (transact_bitInput b q s).trans (exec_onbit_of_effect (s := startStep (bitInput b q) s) hw hc h)

/-! ### A stream that keeps matching -/

/-- A matching bit at cursor `S` brings the cursor back to `S` (R131). -/
theorem transact_match_at_S {b : Bool} {s : State} (q : Quality) (hw : s.cfg.wf) (hl : s.lock = .LOCKED)
    (hcur : s.cur = s.cfg.S) (hm : hamming s.cfg (shifted b s.win) ≤ s.cfg.RUN_TOL) :
    transact (bitInput b q) s = .next (anchor (written b (startStep (bitInput b q) s))) := by
  have hb := Cfg.wf_bounds hw
  have hin : inInpos s.cfg (s.cur + 1) = true := (inInpos_iff _ _).mpr (by omega)
  exact transact_bitInput_of_effect hw (fun _ => by omega) (.resyncs hl hin (matchRun_eq_true.mpr hm))

/-- Settles O38: by induction on the bits, each of which leaves the counters of an anchor and no event. -/
theorem repeatedResyncEmitsNothing : Obligations.RepeatedResyncEmitsNothing := by
  intro bs
  induction bs with
  | nil => exact fun s _ hl hcur _ => ⟨rfl, s, rfl, hl, hcur, absurd rfl⟩
  | cons p bs ih =>
    obtain ⟨b, q⟩ := p
    intro s hw hl hcur hall
    obtain ⟨hm, hrest⟩ := Bool.and_eq_true_iff.mp hall
    have hstep := transact_match_at_S q hw hl hcur (of_decide_eq_true hm)
    obtain ⟨hobs, t, hfeed, hlock, hS, hcd⟩ := ih (anchor (written b (startStep (bitInput b q) s))) hw hl rfl hrest
    refine ⟨?_, t, feed_cons_eq_next.mpr ⟨_, hstep, hfeed⟩, hlock, hS, fun _ => ?_⟩
    · rw [bitsIn, List.map_cons, observe, hstep]
      exact congrArg ([] :: ·) hobs
    · cases bs with
      | nil => rw [← Host.Outcome.next.inj hfeed]; rfl
      | cons _ _ => exact hcd (List.cons_ne_nil _ _)

/-! ### Quiet bits inside a frame -/

/-- A quiet bit that does not end the frame is only written (R113). -/
theorem transact_quiet {b : Bool} {s : State} (q : Quality) (hw : s.cfg.wf) (hl : s.lock = .LOCKED)
    (hF : s.cur + 1 < s.cfg.F) (hfar : s.cfg.RUN_TOL < hamming s.cfg (shifted b s.win)) :
    transact (bitInput b q) s = .next (written b (startStep (bitInput b q) s)) :=
  transact_bitInput_of_effect hw (fun _ => Nat.lt_of_succ_lt hF)
    (.advances hl hF fun hm => absurd (matchRun_eq_true.mp hm) hfar.not_ge)

/-- `m'` holds the payload bits of `m` below `n`, and the bits `bs` from `n` on. -/
structure HoldsRun (m : Memory) (n : Nat) (bs : List Bool) (m' : Memory) : Prop where
  held : ∀ i, i < n → payloadBit m' i = payloadBit m i
  received : ∀ k, k < bs.length → some (payloadBit m' (n + k)) = bs[k]?

/-- The next bit written after a run lengthens it. -/
theorem HoldsRun.concat {m m' : Memory} {n : Nat} {bs : List Bool} (h : HoldsRun m n bs m') (b : Bool) :
    HoldsRun m n (bs ++ [b]) (putPayloadBit m' (n + bs.length) b) := by
  obtain ⟨hbit, hothers, -⟩ := putPayloadBit_frame m' (n + bs.length) b
  refine ⟨fun i hi => (hothers i (by omega)).trans (h.held i hi), fun k hk => ?_⟩
  rw [List.length_append, List.length_singleton] at hk
  obtain hlt | rfl : k < bs.length ∨ k = bs.length := by omega
  · rw [hothers _ (by omega), h.received k hlt, List.getElem?_append_left hlt]
  · rw [hbit, List.getElem?_concat_length]

/-- `bs` takes `s` to `t` inside one frame: no event, the cursor advanced over the bits, and the bits in the buffer
beside those it held (R113). -/
structure Fills (bs : List (Bool × Quality)) (s t : State) : Prop where
  feed_eq : feed (bitsIn bs) s = .next t
  observe_eq : observe (bitsIn bs) s = List.replicate bs.length []
  lock_eq : t.lock = s.lock
  cd_eq : t.cd = s.cd
  cur_eq : t.cur = s.cur + bs.length
  bits : HoldsRun s.buf s.cur (bs.map Prod.fst) t.buf

theorem Fills.nil (s : State) : Fills [] s s := ⟨rfl, rfl, rfl, rfl, rfl, fun _ _ => rfl, nofun⟩

/-- The buffer after a further bit is written holds that bit too. -/
theorem Fills.bits_concat {bs : List (Bool × Quality)} {s t : State} (h : Fills bs s t) (b : Bool) (q : Quality) :
    HoldsRun s.buf s.cur ((bs ++ [(b, q)]).map Prod.fst) (putPayloadBit t.buf t.cur b) := by
  have hbits := h.bits.concat b
  rw [List.length_map, ← h.cur_eq] at hbits
  rwa [List.map_append]

/-- Quiet bits that do not reach the frame's end fill it. -/
theorem exists_fills (bs : List (Bool × Quality)) {s : State} (hw : s.cfg.wf) (hl : s.lock = .LOCKED)
    (hF : s.cur + bs.length < s.cfg.F) (hq : quiet s.cfg s.win (bs.map Prod.fst) = true) : ∃ t, Fills bs s t := by
  induction bs using List.reverseRecOn with
  | nil => exact ⟨s, .nil s⟩
  | append_singleton bs p ih =>
    obtain ⟨b, q⟩ := p
    rw [List.length_append, List.length_singleton] at hF
    rw [List.map_append, quiet_append, List.map_singleton, quiet_singleton] at hq
    obtain ⟨hbefore, hfar⟩ := hq
    obtain ⟨u, hu⟩ := ih (by omega) hbefore
    have hcfg : u.cfg = s.cfg := feed_keeps_cfg hu.feed_eq
    have hcur : u.cur = s.cur + bs.length := hu.cur_eq
    have hstep := transact_quiet (b := b) (s := u) q (hcfg ▸ hw) (hu.lock_eq.trans hl) (by rw [hcfg]; omega)
      (by rwa [hcfg, feed_bitsIn_win hu.feed_eq])
    obtain ⟨hfeed, hobs⟩ := feed_bitsIn_concat hu.feed_eq hstep
    refine ⟨_, hfeed, ?_, hu.lock_eq, hu.cd_eq, ?_, hu.bits_concat b q⟩
    · rw [hobs, hu.observe_eq, List.length_append, List.length_singleton, List.replicate_succ']; rfl
    · rw [List.length_append, List.length_singleton, ← Nat.add_assoc, ← hcur]; rfl

/-! ### A quiet frame period -/

/-- Under the invariants the countdown of a LOCKED state has not run out (R30). -/
theorem Invariants.one_le_cd {s : State} (hs : Invariants s) (hl : s.lock = .LOCKED) : 1 ≤ s.cd := by
  obtain ⟨-, -, -, hlocked, -⟩ := hs
  exact (hlocked hl).1

/-- The bits of a quiet frame period are its last bit and the bits before it, which fill the frame to one short of its
end. -/
theorem exists_fills_to_last {bs : List (Bool × Quality)} {s : State} (hs : Invariants s) (hl : s.lock = .LOCKED)
    (hlen : bs.length = s.cfg.F - s.cur) (hq : quiet s.cfg s.win (bs.map Prod.fst) = true) :
    ∃ init b q u, bs = init ++ [(b, q)] ∧ Fills init s u ∧ u.cur + 1 = u.cfg.F := by
  have hcur := hs.cur_lt hl
  obtain rfl | ⟨init, ⟨b, q⟩, rfl⟩ := bs.eq_nil_or_concat'
  · rw [List.length_nil] at hlen; omega
  · rw [List.length_append, List.length_singleton] at hlen
    rw [List.map_append, quiet_append] at hq
    obtain ⟨u, hu⟩ := exists_fills init hs.1 hl (by omega) hq.1
    exact ⟨init, b, q, u, rfl, hu, by rw [hu.cur_eq, feed_keeps_cfg hu.feed_eq]; omega⟩

/-- Settles O40: the bits before the last only fill the frame; the last one completes it, with a lock loss or an
emission by the countdown, and the frame's bits are those the filled buffer holds. -/
theorem framePeriodEndsInOneEvent : Obligations.FramePeriodEndsInOneEvent := by
  intro bs s hs hl hlen hq
  obtain ⟨init, b, q, u, rfl, hu, hF⟩ := exists_fills_to_last hs hl hlen hq
  have hb := Cfg.wf_bounds hs.1
  have hinv := feed_keeps_invariants hs hu.feed_eq
  have hlu : u.lock = .LOCKED := hu.lock_eq.trans hl
  have hcfg : u.cfg = s.cfg := feed_keeps_cfg hu.feed_eq
  have hinit : (init ++ [(b, q)]).length - 1 = init.length := by simp
  rw [hinit, ← hu.observe_eq, ← hu.cd_eq, ← hcfg]
  have hpos := hinv.one_le_cd hlu
  obtain hone | hmore : u.cd = 1 ∨ 2 ≤ u.cd := by omega
  · obtain ⟨t, hexec, hlock, -, hcd, hcur, hev, -⟩ :=
      completionLosesLock b (startStep (bitInput b q) u) hinv.1 hlu hF hone
    obtain ⟨hfeed, hobs⟩ := feed_bitsIn_concat hu.feed_eq ((transact_bitInput b q u).trans hexec)
    exact ⟨t, hfeed, hcd.trans (by rw [hone]), fun _ => ⟨hlock, hcur, by rw [hobs, hev]; rfl⟩, fun _ => by omega⟩
  · obtain ⟨t, bytes, hexec, hlock, -, hcd, hcur, hev, -, -, hlength, hfirst, hbits, -⟩ :=
      completionEmitsPayload b (startStep (bitInput b q) u) hinv.1 hlu hF hmore
    obtain ⟨hfeed, hobs⟩ := feed_bitsIn_concat hu.feed_eq ((transact_bitInput b q u).trans hexec)
    have hholds := hu.bits_concat b q
    have hframe (i : Nat) (hi : i < s.cfg.F) : frameBit bytes i = payloadBit (putPayloadBit u.buf u.cur b) i :=
      (hbits i (show i < 8 * u.cfg.FB by rw [hcfg]; omega)).trans (payloadBit_putPayloadBit ..).symm
    refine ⟨t, hfeed, hcd, fun _ => by omega,
      fun _ => ⟨hlock, hcur, bytes, by rw [hobs, hev]; rfl, hlength, hfirst, fun i hi => ?held, fun k hk => ?received⟩⟩
    case held => exact (hframe i (hi.trans (hs.cur_lt hl))).trans (hholds.held i hi)
    case received =>
      rw [hframe _ (by omega)]
      exact hholds.received k (by rwa [List.length_map])

/-! ### The countdown runs out -/

/-- `bs` takes `s` to `t` over `n` completions that emit: their frames are the only events, each with the first byte its
countdown chooses, and the countdown is `n` lower (R128). -/
structure EmitsFrames (n : Nat) (bs : List (Bool × Quality)) (s : State) (frames : List (List Byte)) (t : State) :
    Prop where
  runs : RunsTo (bitsIn bs) s (frames.map Event.EmitPayload) t
  length_eq : frames.length = n
  first : ∀ i, i < n → (frames.getD i [])[0]? = some (payloadPfx s.cfg (s.cd - 1 - i))
  lock_eq : t.lock = .LOCKED
  cd_eq : t.cd = s.cd - n
  cur_eq : t.cur = if n = 0 then s.cur else 0

/-- A list of length `m + n` is one of length `m` before one of length `n`. -/
theorem exists_append_of_length_add {α : Type} {l : List α} {m n : Nat} (h : l.length = m + n) :
    ∃ l₁ l₂, l = l₁ ++ l₂ ∧ l₁.length = m ∧ l₂.length = n :=
  ⟨l.take m, l.drop m, (List.take_append_drop m l).symm, by rw [List.length_take]; omega,
    by rw [List.length_drop]; omega⟩

/-- Fewer than `cd` completions, with no resync, all emit (R126 to R128): the `n`-th comes `n * F - cur` bits on. -/
theorem exists_emitsFrames (n : Nat) {bs : List (Bool × Quality)} {s : State} (hs : Invariants s)
    (hl : s.lock = .LOCKED) (hn : n < s.cd) (hlen : bs.length = n * s.cfg.F - s.cur)
    (hq : quiet s.cfg s.win (bs.map Prod.fst) = true) : ∃ frames t, EmitsFrames n bs s frames t := by
  induction n generalizing bs s with
  | zero =>
    obtain rfl : bs = [] := List.eq_nil_of_length_eq_zero (by omega)
    exact ⟨[], s, .nil s, rfl, nofun, hl, rfl, rfl⟩
  | succ n ih =>
    have hcur := hs.cur_lt hl
    obtain ⟨bs₁, bs₂, rfl, hlen₁, hlen₂⟩ :
        ∃ bs₁ bs₂, bs = bs₁ ++ bs₂ ∧ bs₁.length = s.cfg.F - s.cur ∧ bs₂.length = n * s.cfg.F :=
      exists_append_of_length_add (hlen.trans (by rw [Nat.succ_mul]; omega))
    rw [List.map_append, quiet_append] at hq
    obtain ⟨hq₁, hq₂⟩ := hq
    obtain ⟨u, hfeed, hcd, -, hemits⟩ := framePeriodEndsInOneEvent bs₁ s hs hl hlen₁ hq₁
    obtain ⟨hlu, hcur₀, bytes, hobs, -, hfirst, -⟩ := hemits ((Nat.le_add_left 1 n).trans_lt hn)
    have hcfg : u.cfg = s.cfg := feed_keeps_cfg hfeed
    obtain ⟨frames, t, hrest⟩ := ih (bs := bs₂) (feed_keeps_invariants hs hfeed) hlu (by omega)
      (by rw [hcfg, hcur₀, hlen₂]; rfl) (by rwa [hcfg, feed_bitsIn_win hfeed])
    have hrun : RunsTo (bitsIn bs₁) s [.EmitPayload bytes] u := ⟨hfeed, by simp [hobs]⟩
    refine ⟨bytes :: frames, t, bitsIn_append bs₁ bs₂ ▸ hrun.append hrest.runs, congrArg (· + 1) hrest.length_eq,
      fun i hi => ?first, hrest.lock_eq, ?cd, ?cur⟩
    case first =>
      cases i with
      | zero => exact hfirst
      | succ i =>
        rw [List.getD_cons_succ, hrest.first i (Nat.lt_of_succ_lt_succ hi), hcfg, hcd]
        congr 2; omega
    case cd => rw [hrest.cd_eq, hcd]; omega
    case cur => rw [hrest.cur_eq, hcur₀, ite_self, if_neg n.succ_ne_zero]

/-- The period after the `n`-th completion is the whole frame, or what is left of the first one. -/
theorem succ_periods_length {F cur : Nat} (h : cur < F) (n : Nat) :
    (n + 1) * F - cur = (n * F - cur) + (F - if n = 0 then cur else 0) := by
  cases n with
  | zero => simp
  | succ n =>
    have hle : F ≤ (n + 1) * F := Nat.le_mul_of_pos_left F n.succ_pos
    rw [if_neg n.succ_ne_zero, Nat.succ_mul (n + 1)]
    omega

/-- With no resync the countdown runs out: all completions but the last one emit, and the last one loses lock (R128,
R129). -/
theorem exists_emitsFrames_then_loss {bs : List (Bool × Quality)} {s : State} {n : Nat} (hs : Invariants s)
    (hl : s.lock = .LOCKED) (hcd : s.cd = n + 1) (hlen : bs.length = (n + 1) * s.cfg.F - s.cur)
    (hq : quiet s.cfg s.win (bs.map Prod.fst) = true) :
    ∃ (frames : List (List Byte)) (t : State), RunsTo (bitsIn bs) s
      (frames.map Event.EmitPayload ++ [.SetDecode false, .LockLost]) t ∧
      t.lock = .UNLOCKED ∧ t.cd = 0 ∧ frames.length = n ∧
      ∀ i, i < n → (frames.getD i [])[0]? = some (payloadPfx s.cfg (s.cd - 1 - i)) := by
  obtain ⟨bs₁, bs₂, rfl, hlen₁, hlen₂⟩ :=
    exists_append_of_length_add (hlen.trans (succ_periods_length (hs.cur_lt hl) n))
  rw [List.map_append, quiet_append] at hq
  obtain ⟨hq₁, hq₂⟩ := hq
  obtain ⟨frames, u, hu⟩ := exists_emitsFrames n hs hl (by omega) hlen₁ hq₁
  have hfeed := hu.runs.feed_eq
  have hcfg : u.cfg = s.cfg := feed_keeps_cfg hfeed
  have hone : u.cd = 1 := by rw [hu.cd_eq]; omega
  obtain ⟨t, hlast, hcd₀, hloses, -⟩ := framePeriodEndsInOneEvent bs₂ u (feed_keeps_invariants hs hfeed) hu.lock_eq
    (by rw [hlen₂, hcfg, hu.cur_eq]) (by rwa [hcfg, feed_bitsIn_win hfeed])
  obtain ⟨hlock, -, hobs⟩ := hloses hone
  have hrun : RunsTo (bitsIn bs₂) u [.SetDecode false, .LockLost] t := ⟨hlast, by simp [hobs]⟩
  exact ⟨frames, t, bitsIn_append bs₁ bs₂ ▸ hu.runs.append hrun, hlock, hcd₀.trans (by rw [hone]),
    hu.length_eq, hu.first⟩

/-- The bits to the `n`-th completion: what is left of the first frame, and `n - 1` whole ones. -/
theorem periods_length {F cur n : Nat} (h : cur < F) (hn : 1 ≤ n) : F - cur + (n - 1) * F = n * F - cur := by
  obtain ⟨n, rfl⟩ := Nat.exists_eq_add_of_le' hn
  rw [Nat.add_sub_cancel, Nat.succ_mul]
  omega

/-- From an anchor the first emitted frame alone is flagged (R126, R128). -/
theorem payloadPfx_after_anchor {c : Cfg} {i : Nat} (hi : i < c.MAX - 1) :
    payloadPfx c (c.MAX - 1 - i) = if i = 0 then c.PFX_FLAG else c.PFX_NOFLAG := by
  have hiff : c.MAX - 1 - i = c.MAX - 1 ↔ i = 0 := by omega
  simp only [payloadPfx, hiff]

/-- Settles O41: `MAX - 1` completions emit, with the countdown from `MAX - 1` down to 1, and the `MAX`-th loses lock; the
first bits alone reach the state after each of the others. -/
theorem countdownExhaustion : Obligations.CountdownExhaustion := by
  intro bs s hs hl hcur hcd hlen hq
  have hmax : 1 ≤ s.cfg.MAX := hcd ▸ hs.one_le_cd hl
  have hlt : s.cfg.S < s.cfg.F := hcur ▸ hs.cur_lt hl
  have hsucc : s.cfg.MAX - 1 + 1 = s.cfg.MAX := Nat.sub_add_cancel hmax
  obtain ⟨frames, t, hrun, hlock, hcd₀, hcount, hfirst⟩ := exists_emitsFrames_then_loss (n := s.cfg.MAX - 1) hs hl
    (hcd.trans hsucc.symm) (by rw [hlen, hsucc, hcur, periods_length hlt hmax]) hq
  refine ⟨⟨frames, hcount, hrun.events_eq, fun i hi => ?_⟩, ⟨t, hrun.feed_eq, hlock, hcd₀⟩, fun n hn hnmax => ?_⟩
  · rw [hcount] at hi
    rw [hfirst i hi, hcd, payloadPfx_after_anchor hi]
  · rw [periods_length hlt hn]
    rw [periods_length hlt hmax] at hlen
    have hle : n * s.cfg.F ≤ s.cfg.MAX * s.cfg.F := Nat.mul_le_mul_right _ hnmax.le
    rw [← List.take_append_drop (n * s.cfg.F - s.cfg.S) bs, List.map_append, quiet_append] at hq
    obtain ⟨_, u, hu⟩ := exists_emitsFrames n hs hl (by omega)
      (by rw [List.length_take_of_le (by omega), hcur]) hq.1
    exact ⟨u, hu.runs.feed_eq, hu.lock_eq, hu.cur_eq.trans (if_neg (by omega)), hcd ▸ hu.cd_eq⟩

end Sys2Proof.Machine
end

section
/-! SUPPORT. The lifecycle (R140 to R144): what a step takes from its inputs, the dispatch, RESET as a fresh start, and
runs without their NOPs. -/

namespace Sys2Proof.Machine

/-! ### One step -/

/-- A step takes the first pending input (R140). -/
theorem step_of_inputs_cons {s : State} {x : Input} {rest : List Input} (h : s.inputs = x :: rest) :
    step s = transact x { s with inputs := rest } := by
  unfold step present; rw [h]

/-- A step with no input pending is a step with no call, the quality as it stands (R62). -/
theorem step_of_inputs_nil {s : State} (h : s.inputs = []) : step s = transact { tx := 0b000, sq := s.sq } s := by
  unfold step present; rw [h]

/-- A table word below 8 decodes as its three bits do (R60). -/
theorem decodeTableWord_of_lt (nbits : Nat) {w : Nat} (hw : w < 8) :
    decodeTableWord nbits w = some (decode (BitVec.ofNat 3 w)) := by
  unfold decodeTableWord decodeNumber; rw [if_pos hw]

/-- Settles O5: the next input is the first pending one, the idle word, or the word fetched. -/
theorem stepRunsDecoded : Obligations.StepRunsDecoded := by
  refine ⟨fun s x rest h => step_of_inputs_cons h, fun s h => ?_, fun s w hw i hi => ?_⟩
  · rw [step_of_inputs_nil h, transact_of_decode_nop (decode_encode .nop)]; rfl
  · rw [decodeTableWord_of_lt 8 hw] at hi
    rw [← Option.some.inj hi]
    exact step_of_inputs_cons (s := s.withFetchWord 8 w) rfl

/-- An ONBIT word runs the behaviour of the lock state at the start of the step (R140). -/
theorem transact_of_decode_onbit {x : Input} {b : Bool} (h : decode x.tx = .onbit b) (s : State) :
    transact x s = if s.lock = .UNLOCKED then answer (onbitUnlocked b (startStep x s))
      else answer (onbitLocked b (startStep x s)) := by
  unfold transact
  rw [h]
  cases hl : s.lock with
  | UNLOCKED => exact exec_onbit_unlocked (s := startStep x s) hl
  | LOCKED => exact exec_onbit_locked (s := startStep x s) hl

/-- Settles O6: one equation for each class of words, in the order of the decoder's priority. -/
theorem dispatchOnLock : Obligations.DispatchOnLock := by
  intro tx q s
  cases h2 : tx.getLsbD 2 with
  | true => exact transact_of_decode_reset (decode_of_rst h2) s
  | false =>
    cases h1 : tx.getLsbD 1 with
    | true => exact transact_of_decode_onbit (decode_of_valid h2 h1) s
    | false => exact transact_of_decode_nop (decode_of_idle h2 h1) s

/-- Settles O9: the law of NOP. -/
theorem nopChangesNothing : Obligations.NopChangesNothing := exec_nop

/-! ### RESET -/

/-- Everything RESET can do: the block to its reset value, the rest as it was (R141). -/
theorem exec_reset_eq_next {s t : State} : exec .reset s = .next t ↔ t = { s with toBlock := Block.reset } := by
  rw [exec_reset, Host.Outcome.next.injEq, eq_comm]

/-- Settles O7: the state RESET answers holds the reset block and the old ports, whatever the block was. -/
theorem resetClearsBlock : Obligations.ResetClearsBlock := by
  refine ⟨fun s => ⟨_, exec_reset s, rfl, rfl, rfl, rfl, fun _ _ => rfl, rfl, ⟨rfl, rfl, rfl⟩, rfl⟩, ?_⟩
  intro s s' _ t t' h h'
  rw [exec_reset_eq_next.mp h, exec_reset_eq_next.mp h']

/-- Settles O53: RESET gives a freshly built block and keeps the configuration, and the events depend on these alone. -/
theorem resetIsFresh : Obligations.ResetIsFresh := by
  intro s t h
  rw [exec_reset_eq_next.mp h]
  exact ⟨rfl, rfl, obsEq_of_toBlock_eq rfl rfl⟩

/-! ### Runs without their NOPs -/

theorem isIdle_iff {x : Input} : isIdle x = true ↔ decode x.tx = .nop := beq_iff_eq

/-- `u` has the block and the configuration of a state the run reaches. -/
def Reaches (xs : List Input) (s u : State) : Prop :=
  ∃ v, feed xs s = .next v ∧ v.toBlock = u.toBlock ∧ v.cfg = u.cfg

/-- How far a run gets depends on the block and the configuration alone (R29, R53). -/
theorem reaches_of_toBlock_eq {xs : List Input} {s t u : State} (hb : s.toBlock = t.toBlock) (hc : s.cfg = t.cfg)
    (h : feed xs s = .next u) : Reaches xs t u := by
  induction xs generalizing s t with
  | nil =>
    obtain rfl := Host.Outcome.next.inj h
    exact ⟨t, rfl, hb.symm, hc.symm⟩
  | cons x xs ih =>
    obtain ⟨s', hs', hrest⟩ := feed_cons_eq_next.mp h
    obtain ⟨v, hv, hblock⟩ := ih (s := s') (t := withInputs t.inputs s') rfl rfl hrest
    have ht' : transact x t = .next (withInputs t.inputs s') := by rw [transact_congr x hb hc, hs']; rfl
    exact ⟨v, feed_cons_eq_next.mpr ⟨_, ht', hv⟩, hblock⟩

/-- A NOP before other inputs adds an empty event list and changes nothing an observer sees (R142). -/
theorem observe_cons_of_nop {x : Input} (h : decode x.tx = .nop) (xs : List Input) (s : State) :
    observe (x :: xs) s = [] :: observe xs s := by
  rw [observe, transact_of_decode_nop h]
  exact congrArg ([] :: ·) (obsEq_of_toBlock_eq (s := startStep x s) (t := s) rfl rfl xs)

/-- Dropping the NOPs keeps the events in order. -/
theorem flatten_observe_filter (xs : List Input) (s : State) :
    (observe xs s).flatten = (observe (xs.filter fun x => !isIdle x) s).flatten := by
  induction xs generalizing s with
  | nil => rfl
  | cons x xs ih =>
    cases hx : isIdle x with
    | true =>
      rw [List.filter_cons_of_neg (by simp [hx]), observe_cons_of_nop (isIdle_iff.mp hx), List.flatten_cons,
        List.nil_append, ih]
    | false =>
      rw [List.filter_cons_of_pos (by simp [hx])]
      unfold observe
      cases transact x s with
      | next t => rw [List.flatten_cons, List.flatten_cons, ih]
      | fault f => rfl
      | refused r => rfl

/-- Dropping the NOPs keeps the block and the configuration a run ends with. -/
theorem reaches_filter {xs : List Input} {s t : State} (h : feed xs s = .next t) :
    Reaches (xs.filter fun x => !isIdle x) s t := by
  induction xs generalizing s with
  | nil => exact ⟨t, h, rfl, rfl⟩
  | cons x xs ih =>
    obtain ⟨s', hs', hrest⟩ := feed_cons_eq_next.mp h
    obtain ⟨u, hu, hblock, hcfg⟩ := ih hrest
    cases hx : isIdle x with
    | true =>
      obtain rfl := Host.Outcome.next.inj ((transact_of_decode_nop (isIdle_iff.mp hx) s).symm.trans hs')
      obtain ⟨v, hv, hblock', hcfg'⟩ := reaches_of_toBlock_eq (s := startStep x s) (t := s) rfl rfl hu
      rw [List.filter_cons_of_neg (by simp [hx])]
      exact ⟨v, hv, hblock'.trans hblock, hcfg'.trans hcfg⟩
    | false =>
      rw [List.filter_cons_of_pos (by simp [hx])]
      exact ⟨u, feed_cons_eq_next.mpr ⟨s', hs', hu⟩, hblock, hcfg⟩

/-- Settles O10: the events and the final block, each by induction on the inputs. -/
theorem nopsMakeNoDifference : Obligations.NopsMakeNoDifference :=
  fun xs s => ⟨flatten_observe_filter xs s, fun _ h => reaches_filter h⟩

end Sys2Proof.Machine
end

section
/-! SUPPORT. Completion of a transaction (R150, R152): that each one answers a state, that a run does, and that none is
refused. -/

namespace Sys2Proof.Machine

/-- Under the invariants every instruction completes (R150). -/
theorem exists_exec_eq_next (i : Instr) {s : State} (hs : Invariants s) : ∃ t, exec i s = .next t := by
  cases i with
  | reset => exact ⟨_, exec_reset s⟩
  | nop => exact ⟨_, exec_nop s⟩
  | onbit b =>
    obtain ⟨t, ht, -⟩ := exec_onbit_effect hs.1 hs.cur_lt b
    exact ⟨t, ht⟩

/-- Under the invariants every run is safe: each transaction completes and keeps them (R152). -/
theorem safeRun_of_invariants (xs : List Input) {s : State} (hs : Invariants s) : SafeRun xs s := by
  induction xs generalizing s with
  | nil => exact ⟨s, rfl⟩
  | cons x xs ih =>
    obtain ⟨u, hu⟩ : ∃ u, transact x s = .next u := exists_exec_eq_next (decode x.tx) (s := startStep x s) hs
    obtain ⟨t, ht⟩ := ih (transact_keeps_invariants hs hu)
    exact ⟨t, feed_cons_eq_next.mpr ⟨u, hu, ht⟩⟩

theorem answer_ne_refused (x : Except Fault State) (r : Refusal) : answer x ≠ .refused r := by
  cases x <;> exact nofun

/-- No instruction is refused, in any state (R63, R150). -/
theorem exec_ne_refused (i : Instr) (s : State) (r : Refusal) : exec i s ≠ .refused r := by
  cases i with
  | reset => exact nofun
  | nop => exact nofun
  | onbit b =>
    cases hl : s.lock with
    | UNLOCKED => rw [exec_onbit_unlocked hl]; exact answer_ne_refused _ r
    | LOCKED => rw [exec_onbit_locked hl]; exact answer_ne_refused _ r

/-- Settles O44: `construct` gives the reset state of a well-formed configuration, which meets the invariants. -/
theorem everyTransactionCompletes : Obligations.EveryTransactionCompletes := by
  refine ⟨fun i _ hs => exists_exec_eq_next i hs, fun c xs s h => ?_, exec_ne_refused⟩
  obtain ⟨hw, rfl⟩ := construct_eq_next h
  exact safeRun_of_invariants xs (invariants_of_reset hw rfl)

/-- Settles O45: ONBIT has one of its effects, and whichever it is, it leaves the ports alone and shifts the window. -/
theorem onbitCompletes : Obligations.OnbitCompletes := by
  intro b s hw hc
  obtain ⟨t, ht, -⟩ := exec_onbit_effect hw hc b
  obtain ⟨hcfg, hinputs, hsq, hwin⟩ := execOnbit_sameOutside ht
  exact ⟨t, ht, hwin, hcfg, hinputs, hsq⟩

end Sys2Proof.Machine
end

section
/-! SUPPORT. The changes of the lock state (R157), from every state and whatever the configuration: what each part of
ONBIT does to it, and where a step enters or leaves LOCKED. -/

namespace Sys2Proof.Machine

/-! ### The parts of ONBIT -/

/-- Everything an UNLOCKED step can do, whatever the configuration: acquire or only shift (R100, R102). -/
theorem onbitUnlocked_eq_ok {b : Bool} {s t : State} (h : onbitUnlocked b s = .ok t) :
    matchStart s.cfg (hamming s.cfg (shifted b s.win)) = true ∧ t = acquired b s ∨ t = shiftIn b s := by
  unfold onbitUnlocked at h
  dsimp only at h
  split at h
  case isTrue hm => exact .inl ⟨hm, acquire_eq_ok h⟩
  case isFalse => exact .inr (Except.ok.inj h).symm

theorem flushHeader_lock {s t : State} (h : flushHeader s = .ok t) : t.lock = s.lock := by
  obtain ⟨u, hu, h⟩ := bind_eq_ok.mp h
  obtain ⟨bytes, -, h⟩ := bind_eq_ok.mp h
  obtain ⟨-, rfl⟩ := memWrite_eq_ok.mp hu
  rw [fullAnchor_eq_ok h]; rfl

theorem earlyResync_lock {hd : Nat} {s t : State} (h : earlyResync hd s = .ok t) : t.lock = s.lock := by
  unfold earlyResync at h
  split at h
  case isTrue => exact flushHeader_lock h
  case isFalse => rw [Except.ok.inj h]

@[simp] theorem inposResync_lock (hd : Nat) (s : State) : (inposResync hd s).lock = s.lock := by
  unfold inposResync
  split <;> rfl

/-- A completion keeps the lock state, or it is a lock loss at the end of a frame (R125). -/
theorem completion_lock {s t : State} (h : completion s = .ok t) :
    t.lock = s.lock ∨ s.cur = s.cfg.F ∧ t = loseLock { s with cd := 0 } := by
  unfold completion at h
  dsimp only at h
  split at h
  case isTrue hF =>
    split at h
    case isTrue hz =>
      rw [hz] at h
      exact .inr ⟨hF, (Except.ok.inj h).symm⟩
    case isFalse =>
      rw [emitFrame_ok] at h
      rw [← Except.ok.inj h]
      exact .inl rfl
  case isFalse => exact .inl (congrArg (·.lock) (Except.ok.inj h).symm)

/-- A LOCKED step keeps the lock state, or it ends in a lock loss, which leaves the cursor at `F` (R125, D17). -/
theorem onbitLocked_lock {b : Bool} {s t : State} (h : onbitLocked b s = .ok t) :
    t.lock = s.lock ∨ t.cur = s.cfg.F ∧ t.cd = 0 ∧ ∃ pre, t.events = pre ++ [.SetDecode false, .LockLost] := by
  obtain ⟨hcfg, -⟩ := onbitLocked_sameOutside h
  obtain ⟨-, u, hu, ht⟩ := onbitLocked_eq_ok h
  rcases completion_lock ht with hkeep | ⟨hF, rfl⟩
  · rw [inposResync_lock, earlyResync_lock hu] at hkeep
    exact .inl hkeep
  · exact .inr ⟨hF.trans (congrArg Cfg.F hcfg), rfl, _, loseLock_events _⟩

/-! ### Where a step enters and leaves LOCKED -/

/-- LOCKED is entered by acquisition only (R157). -/
theorem onbit_of_enters_lock {x : Input} {s t : State} (h : transact x s = .next t) (hs : s.lock = .UNLOCKED)
    (ht : t.lock = .LOCKED) : ∃ b, decode x.tx = .onbit b ∧
      hamming s.cfg (shifted b s.win) ≤ s.cfg.START_TOL ∧ t.events = [.SetDecode true] := by
  cases hd : decode x.tx with
  | reset =>
    rw [transact_of_decode_reset hd] at h
    cases h; exact nomatch ht
  | nop =>
    rw [transact_of_decode_nop hd] at h
    cases h; exact nomatch hs.symm.trans ht
  | onbit b =>
    rw [transact_of_decode_onbit hd, if_pos hs, answer_eq_next] at h
    rcases onbitUnlocked_eq_ok h with ⟨hm, rfl⟩ | rfl
    · exact ⟨b, rfl, matchStart_eq_true.mp hm, rfl⟩
    · exact nomatch hs.symm.trans ht

/-- LOCKED is left by RESET and by lock loss only (R157). -/
theorem reset_or_onbit_of_leaves_lock {x : Input} {s t : State} (h : transact x s = .next t) (hs : s.lock = .LOCKED)
    (ht : t.lock = .UNLOCKED) : decode x.tx = .reset ∨ ∃ b, decode x.tx = .onbit b ∧ t.cur = s.cfg.F ∧ t.cd = 0 ∧
      ∃ pre, t.events = pre ++ [.SetDecode false, .LockLost] := by
  cases hd : decode x.tx with
  | reset => exact .inl rfl
  | nop =>
    rw [transact_of_decode_nop hd] at h
    cases h; exact nomatch hs.symm.trans ht
  | onbit b =>
    rw [transact_of_decode_onbit hd, if_neg (by rw [hs]; exact nofun), answer_eq_next] at h
    rcases onbitLocked_lock h with hkeep | hloss
    · exact nomatch ht.symm.trans (hkeep.trans hs)
    · exact .inr ⟨b, rfl, hloss⟩

/-- Settles O48: construction and RESET give the reset block; an UNLOCKED step that locks acquires, and a LOCKED step
that unlocks is a RESET or ends in a lock loss. -/
theorem modeChangesOnlyAsListed : Obligations.ModeChangesOnlyAsListed := by
  refine ⟨fun c s h => ?construct, fun x s t h hd => ?reset,
    fun _ _ _ h => ⟨onbit_of_enters_lock h, reset_or_onbit_of_leaves_lock h⟩⟩
  case construct => rw [(construct_eq_next h).2]; rfl
  case reset =>
    rw [transact_of_decode_reset hd] at h
    cases h; rfl

end Sys2Proof.Machine
end

section
/-! SUPPORT. The bit that acquires lock and the bits beside it: the first bit after reset (R175), the bit after an
acquisition (R180), and the bit after a lock loss (R181). -/

namespace Sys2Proof.Machine

/-! ### The first bit after reset -/

/-- The cleared window holds the first bit alone (R31, R80). -/
theorem shifted_zero (b : Bool) : shifted b 0 = zext64 b := by simp [shifted]

/-- An UNLOCKED step completes, and it ends LOCKED exactly when its window is within the start tolerance (R100,
R102). -/
theorem exists_exec_onbit_lock_iff {b : Bool} {s : State} (hw : s.cfg.wf) (hl : s.lock = .UNLOCKED) :
    ∃ t, exec (.onbit b) s = .next t ∧
      (t.lock = .LOCKED ↔ hamming s.cfg (shifted b s.win) ≤ s.cfg.START_TOL) := by
  by_cases hm : hamming s.cfg (shifted b s.win) ≤ s.cfg.START_TOL
  · exact ⟨_, exec_onbit_of_match hw hl hm, iff_of_true rfl hm⟩
  · exact ⟨_, exec_onbit_of_no_match hl (Nat.lt_of_not_le hm), iff_of_false (fun h => nomatch hl.symm.trans h) hm⟩

/-- Settles O26: the reset state is UNLOCKED, and its window after the bit is that bit alone. -/
theorem firstBitCanAcquire : Obligations.FirstBitCanAcquire := by
  intro c b hw
  have hstep := exists_exec_onbit_lock_iff (b := b) (s := State.resetWith c) hw rfl
  rwa [resetWith_win, shifted_zero] at hstep

/-! ### The bit after an acquisition -/

/-- The sync write leaves the payload bits beyond the sync region alone (R45). -/
theorem payloadBit_writeSync_beyond {c : Cfg} (hw : c.wf) (m : Memory) {i : Nat} (hi : 8 * c.SB ≤ i) :
    payloadBit (writeBytes m 1 c.SYNC_SEQ) i = payloadBit m i := by
  obtain ⟨-, -, -, -, hlen, -⟩ := Cfg.wf_bounds hw
  have hbyte : 1 + c.SYNC_SEQ.length ≤ byteOfBit i := by rw [byteOfBit]; omega
  rw [payloadBit, payloadBit, readByte_writeBytes_outside _ (.inr hbyte)]

/-- Outside the early window a LOCKED step that does not end the frame writes its bit at the cursor and nothing else in
the buffer, whether it resyncs in position or not (R113, R117). -/
theorem exists_exec_onbit_buf {b : Bool} {s : State} (hw : s.cfg.wf) (hl : s.lock = .LOCKED)
    (hF : s.cur + 1 < s.cfg.F) (he : inEarly s.cfg (s.cur + 1) = false) :
    ∃ t, exec (.onbit b) s = .next t ∧ t.buf = putPayloadBit s.buf s.cur b := by
  have hc : s.lock = .LOCKED → s.cur < s.cfg.F := fun _ => Nat.lt_of_succ_lt hF
  by_cases hm : matchRun s.cfg (hamming s.cfg (shifted b s.win)) = true ∧ inInpos s.cfg (s.cur + 1) = true
  · obtain ⟨hrun, hin⟩ := hm
    exact ⟨_, exec_onbit_of_effect hw hc (.resyncs hl hin hrun), rfl⟩
  · exact ⟨_, exec_onbit_of_effect hw hc
      (.advances hl hF fun hrun => ⟨he, Bool.eq_false_iff.mpr fun hin => hm ⟨hrun, hin⟩⟩), rfl⟩

/-- The cursor after `S` is below the early window and the frame's end (R176, `WF_NONOVERLAP`). -/
theorem succ_S_before_early {c : Cfg} (hw : c.wf) : c.S + 1 < c.F ∧ inEarly c (c.S + 1) = false := by
  have hb := Cfg.wf_bounds hw
  refine ⟨by omega, Bool.eq_false_iff.mpr fun he => ?_⟩
  rw [inEarly_iff] at he
  omega

/-- Settles O27: the acquisition writes the sync bytes only and leaves the cursor at `S`, where the next bit goes. -/
theorem bitAfterAcquisitionIsWritten : Obligations.BitAfterAcquisitionIsWritten := by
  intro b b' s hw hl hm
  obtain ⟨hF, he⟩ := succ_S_before_early hw
  obtain ⟨u, hu, hbuf⟩ := exists_exec_onbit_buf (b := b') (s := acquired b s) hw rfl hF he
  obtain ⟨hbit, hothers, -⟩ := putPayloadBit_frame (acquired b s).buf s.cfg.S b'
  exact ⟨acquired b s, u, exec_onbit_of_match hw hl hm, fun i hi => payloadBit_writeSync_beyond hw s.buf hi, hu,
    hbuf ▸ hbit, hbuf ▸ hothers⟩

/-! ### The bit after a lock loss -/

/-- A step that completes shows its events first, and the run goes on from there. -/
theorem observe_cons_of_next {x : Input} {s t : State} (h : transact x s = .next t) (xs : List Input) :
    observe (x :: xs) s = t.events :: observe xs t := by
  rw [observe, h]

/-- Settles O39: the first bit loses lock and keeps the window, so the second one acquires. -/
theorem reacquiresRightAfterLoss : Obligations.ReacquiresRightAfterLoss := by
  intro b b' q q' s hw hl hF hcd hm
  have hloss := (transact_bitInput b q s).trans
    (exec_onbit_loses (b := b) (s := startStep (bitInput b q) s) hw hl hF hcd)
  generalize hu : loseLock (counted b (startStep (bitInput b q) s)) = u at hloss
  have hcfg : u.cfg = s.cfg := hu ▸ rfl
  have hacq := (transact_bitInput b' q' u).trans
    (exec_onbit_of_match (b := b') (s := startStep (bitInput b' q') u) (hcfg ▸ hw) (hu ▸ rfl) (hu ▸ hm))
  refine ⟨?_, _, feed_cons_eq_next.mpr ⟨u, hloss, feed_cons_eq_next.mpr ⟨_, hacq, rfl⟩⟩, rfl, congrArg Cfg.S hcfg,
    congrArg Cfg.MAX hcfg⟩
  rw [observe_cons_of_next hloss, observe_cons_of_next hacq, ← hu]
  rfl

end Sys2Proof.Machine
end

section
/-! SUPPORT. The configuration: what `construct` answers for each one (R144, R151, R176), and that it is fixed (R173). -/

namespace Sys2Proof.Machine

/-- `ceil(n/8)` by its bounds, with no division (R8). -/
theorem eq_ceil8_iff {k n : Nat} : k = ceil8 n ↔ 8 * k - 7 ≤ n ∧ n ≤ 8 * k := by
  unfold ceil8; omega

/-- A well-formed configuration gives the reset state (R144). -/
theorem construct_of_wf {c : Cfg} (h : c.wf) : construct c = .next (State.resetWith c) := by
  rw [construct, h]

/-- The first broken constraint is one that is broken where all before it in R176's order are met. -/
theorem firstBroken_eq_some_iff {c : Cfg} {k : Constraint} :
    c.firstBroken = some k ↔ c.meets k = false ∧
      ∃ pre post, Constraint.all = pre ++ k :: post ∧ ∀ k' ∈ pre, c.meets k' = true := by
  simp only [Cfg.firstBroken, List.find?_eq_some_iff_append, Bool.not_eq_true', Bool.not_not]

/-- A configuration is refused with the first constraint it breaks (R151). -/
theorem construct_of_firstBroken {c : Cfg} {k : Constraint} (h : c.firstBroken = some k) :
    construct c = .fault (.configRefused k) := by
  rw [construct, h]

/-- Settles O46: R176 written out, with the byte length of the sync pattern given by its bounds; and the two answers of
`construct`. -/
theorem constructChecksInOrder : Obligations.ConstructChecksInOrder := by
  refine ⟨fun c => ?conditions, fun c => construct_of_wf, fun c pre post k hall hpre hk => ?refused⟩
  case conditions =>
    rw [Cfg.wf_iff, eq_ceil8_iff (n := c.S), and_assoc (a := 8 * c.SB - 7 ≤ c.S)]
    rfl
  case refused => exact construct_of_firstBroken (firstBroken_eq_some_iff.mpr ⟨hk, pre, post, hall, hpre⟩)

/-- Settles O47: each transaction of a run that reaches a state keeps the configuration. -/
theorem configurationIsFixed : Obligations.ConfigurationIsFixed :=
  fun _ _ _ h => feed_keeps_cfg h

end Sys2Proof.Machine
end
